-- ==== Sys2Proof/Word.lean ====
section
/-! DEFINITION. The widths of the CORE's data (spec/00_scope.md rule R5, spec/10_state.md rule R20, spec/30_encoding.md
rule R70). Bit 7 of a byte is its most significant bit (rule R9), which is `BitVec`'s own numbering. All numbers are
unsigned (rule R11). -/

namespace Sys2Proof

/-- An 8-bit value: a luminance sample (`SAMPLE_W`), the threshold (`THRESH_W`), the accumulator (`ACC_CAP`), a byte of
the sink (`BYTE_W`). Rule R5. -/
abbrev Byte := BitVec 8

/-- The fill counter's three bits, 0 to 7 (rule R22): eight pending bits cannot be written down between commands. -/
abbrev Count := BitVec 3

/-- The 11-bit command word `cmd[10:0]` (rule R70). -/
abbrev Word := BitVec 11

/-- The width of a command word (rule R70). -/
abbrev wordWidth : Nat := 11

end Sys2Proof
end

