-- ==== Sys2Proof/Syntax.lean ====
section
/-! DEFINITION. The four commands (spec/30_encoding.md rule R71), one constructor per row of spec/opcode_table.json. Each
operand has exactly the width the spec gives it (rule R72). -/

namespace Sys2Proof

/-- A command of the CORE. -/
inductive Instr where
  /-- `ADD b`: append one bit (rule R103). The operand is the one bit `cmd[0]`; `true` is 1. -/
  | add (b : Bool)
  /-- `PIX s`: threshold one sample and add its bit (rule R92). -/
  | pix (s : Byte)
  /-- `FLUSH`: emit a partial byte (rule R106). -/
  | flush
  /-- `EOR`: end of row (rule R121). -/
  | eor
  deriving DecidableEq, Repr

/-- The mnemonic of rule R82, as spec/opcode_table.json spells it. -/
def Instr.mnemonic : Instr → String
  | .add _ => "ADD"
  | .pix _ => "PIX"
  | .flush => "FLUSH"
  | .eor => "EOR"

end Sys2Proof
end

