-- ==== Sys2Proof/WellFormed.lean ====
section
/-! DEFINITION. Which command words are well formed: those that some row of the opcode table selects. Every term of `Instr`
is well formed by its operands' types (rule R72); what can be ill formed on this hardware is the WORD a host presents
(rule R169: the duties that are detected). The rows are the `match` and `mask` of rules R74 to R77, written apart from the
decoder, so that the two readings of the encoding check each other. -/

namespace Sys2Proof

/-- One row of the opcode table: a word `w` selects the row when `w & mask = pattern` (rule R73, section 4). -/
structure OpcodeRow where
  mnemonic : String
  mask : Word
  pattern : Word
  deriving DecidableEq, Repr

/-- The row's match and mask test. -/
def OpcodeRow.selects (r : OpcodeRow) (w : Word) : Bool := w &&& r.mask == r.pattern

/-- The opcode table, rules R74 (ADD), R75 (PIX), R76 (FLUSH) and R77 (EOR). -/
def opcodeTable : List OpcodeRow :=
  [ { mnemonic := "ADD",   mask := 0x7FE#11, pattern := 0x000#11 },
    { mnemonic := "PIX",   mask := 0x700#11, pattern := 0x100#11 },
    { mnemonic := "FLUSH", mask := 0x7FF#11, pattern := 0x200#11 },
    { mnemonic := "EOR",   mask := 0x7FF#11, pattern := 0x300#11 } ]

/-- The word is one of the four command words (rule R169). -/
def wordWf (w : Word) : Bool := opcodeTable.any (·.selects w)

end Sys2Proof
end

