-- ==== Sys2Proof/Decode.lean ====
section
/-! DEFINITION. The decoder, total on all 2048 command words (spec/30_encoding.md rule R73), and the encoder (rules R70, R74 to
R77). -/

namespace Sys2Proof

/-- What a word decodes to (rule R73). `illegalBitValue` and `reserved` are not commands. -/
inductive Decoded where
  | command (i : Instr)
  /-- `op = 0` with `data` other than 0 and 1 (rule R78). -/
  | illegalBitValue
  /-- A word that selects no command (rule R79). -/
  | reserved
  deriving DecidableEq, Repr

/-- `op = cmd[10:8]` (rule R70). -/
def opField (w : Word) : BitVec 3 := w.extractLsb' 8 3

/-- `data = cmd[7:0]` (rule R70). -/
def dataField (w : Word) : Byte := w.extractLsb' 0 8

/-- ADD's operand: `data` must be 0x00 or 0x01 (rules R72, R78; log entry 8). -/
def decodeAdd (data : Byte) : Decoded :=
  if data = 0x00#8 then .command (.add false)
  else if data = 0x01#8 then .command (.add true)
  else .illegalBitValue

/-- A command without operand requires `data = 0x00` (rules R76, R77, R79). -/
def decodeBare (i : Instr) (data : Byte) : Decoded :=
  if data = 0x00#8 then .command i else .reserved

/-- The decoder of rule R73. -/
def decode (w : Word) : Decoded :=
  if opField w = 0#3 then decodeAdd (dataField w)
  else if opField w = 1#3 then .command (.pix (dataField w))
  else if opField w = 2#3 then decodeBare .flush (dataField w)
  else if opField w = 3#3 then decodeBare .eor (dataField w)
  else .reserved

/-- The word of format C with these two fields (rule R70). -/
def wordOf (op : BitVec 3) (data : Byte) : Word := op ++ data

/-- The encoder, from the encodings of rules R74 to R77. -/
def encode : Instr → Word
  | .add b => wordOf 0#3 (if b then 0x01#8 else 0x00#8)
  | .pix s => wordOf 1#3 s
  | .flush => wordOf 2#3 0x00#8
  | .eor => wordOf 3#3 0x00#8

/-- The number that an instruction's bits make, as a command word; `none` where it needs more than the 11 bits of the
command port (rule R70). DEDUCED (log entry 11). -/
def tableWord (nbits w : Nat) : Option Word :=
  if w % 2 ^ nbits < 2 ^ wordWidth then some (BitVec.ofNat wordWidth (w % 2 ^ nbits)) else none

/-- The command the decoder reads from the bits `w` of a row of spec/opcode_table.json. -/
def decodeTableWord (nbits w : Nat) : Option Instr :=
  match tableWord nbits w with
  | none => none
  | some word =>
    match decode word with
    | .command i => some i
    | .illegalBitValue => none
    | .reserved => none

end Sys2Proof
end

