-- ==== Sys2Proof/Config.lean ====
section
/-! DEFINITION. What is fixed for the machine: the capacity of the accumulator (rule R5), the configuration defaults (rule R6),
and the FREE VALUES, which the spec leaves unspecified. A free value is a constant with no body, applied to the counter
`State.draws`, so that nothing can be proved of it. -/

namespace Sys2Proof.Config

/-- `ACC_CAP` (rule R5): how many bits the accumulator's stages hold. -/
def accCap : Nat := 8

/-- The threshold when the host supplies none: 100 (rules R6, R26). -/
def defaultThreshold : Byte := 100

/-- The row-flush mode when the host supplies none: row-aligned (rules R6, R27). -/
def defaultRowAligned : Bool := true

/-- FREE VALUE: what ACC holds after a fault (rule R146: "any 8-bit value"; log entry 5). -/
opaque faultAcc : Nat → Byte

/-- FREE VALUE: what CNT holds after a fault (rule R146: "any value 0 .. 7"; log entry 5). -/
opaque faultCnt : Nat → Count

/-- FREE VALUE: the tail `T` that a failing sink leaves after the last accepted byte, any byte sequence, the empty one
included (rule R147; log entry 6). -/
opaque sinkTail : Nat → List Byte

end Sys2Proof.Config
end

