-- ==== Sys2Proof/Machine/State.lean ====
section
/-! DEFINITION. The state of the CORE (spec/10_state.md rule R20) with its ports (rules R31, R32) and the sink it writes to
(rules R30, R147), and the state after reset (rule R38). Plain data. -/

namespace Sys2Proof.Machine

/-- What FCAUSE holds (rule R140). -/
inductive FCause where
  /-- code 0: no fault -/
  | none
  /-- code 1: the sink failed a write (rule R141) -/
  | sinkWriteFailure
  /-- code 2: a bit value other than 0 or 1 (rule R142) -/
  | illegalBitValue
  /-- code 3: a word that selects no command (rule R143) -/
  | reservedCommand
  deriving DecidableEq, Repr

/-- The output `cmd_status` (rule R32). -/
inductive CmdStatus where
  | done
  | faulted
  deriving DecidableEq, Repr

/-- The sink's answer to one write attempt, the input `snk_resp` (rules R7, R31). -/
inductive SinkResp where
  | ok
  | fail
  deriving DecidableEq, Repr

/-- What the host and the sink drive on the CORE's inputs during one step (rule R31). DESIGN CHOICE: one sink answer stands
beside the command of its step (log entry 2). -/
structure PortInput where
  /-- `rst`: reset request (rule R160). -/
  rst : Bool
  /-- `cfg_threshold`; `none` where the host supplies no value (rule R26). -/
  cfgThreshold : Option Byte
  /-- `cfg_row_aligned`; `none` where the host supplies no value (rule R27). -/
  cfgRowAligned : Option Bool
  /-- `cmd_valid`: a command is presented. -/
  cmdValid : Bool
  /-- `cmd`: the command word (rule R70). -/
  cmd : Word
  /-- `snk_resp`: the answer the sink gives to the byte the CORE presents in this step, if it presents one. One answer a
  step is enough, since a command writes at most one byte (rule R110). `none`: the sink never answers (rule R171). -/
  snkResp : Option SinkResp
  deriving DecidableEq, Repr

/-- Why a step stops. -/
inductive Fault where
  /-- Raised by ADD, PIX, FLUSH and EOR when they present a byte and the sink never answers. The spec leaves the case
  outside its model and, for a model that wants it, gives `stuck`: the command never completes (rule R171,
  spec/93_implementation_defined.md U6). DESIGN CHOICE (log entry 7). SAFE: the CORE would wait for ever. -/
  | sinkNeverAnswers
  deriving DecidableEq, Repr

/-- Why an instruction has no meaning. -/
inductive Refusal where
  /-- Answered by an arm of `exec` for an instruction without a meaning; no arm does so now. SAFE. -/
  | notModelled (mnemonic : String)
  deriving DecidableEq, Repr

/-- The state. The first seven fields are the spec's complete state (rule R20). The next two are its outputs (rule R32;
the outputs `fault`, `fcause` and `cnt` are the registers themselves). The rest stands for what is outside the CORE: the
coming inputs, the sink's contents, and the counter of free values. -/
structure State where
  /-- ACC: the pending bits, left-justified (rules R21, R23). -/
  acc : Byte
  /-- CNT: how many bits are pending (rule R22). -/
  cnt : Count
  /-- THRESH: the threshold (rule R26). -/
  thresh : Byte
  /-- ROWAL: `true` is row-aligned mode, `false` continuous mode (rule R27). -/
  rowal : Bool
  /-- FAULT: sticky (rule R28). -/
  fault : Bool
  /-- FCAUSE (rule R29). -/
  fcause : FCause
  /-- OUT: every byte written successfully since reset, oldest first (rule R30). -/
  out : List Byte
  /-- `cmd_status`: the report on the last command presented since reset, `none` before there is one (rule R32). -/
  cmdStatus : Option CmdStatus
  /-- `snk_valid` and `snk_data`: the byte the last command presented to the sink, `none` when it presented none (rule
  R32). -/
  snkOut : Option Byte
  /-- What the host and the sink drive in the coming steps, the next one first (rules R31, R163). -/
  inputs : List PortInput
  /-- `snk_resp` as driven in this step (rule R31). -/
  snkResp : Option SinkResp
  /-- `S0`: what the sink held before the last reset (rules R30, R161). -/
  sinkBefore : List Byte
  /-- `T`: what a failed write left in the sink beyond OUT (rule R147). -/
  sinkTail : List Byte
  /-- The MODEL's counter of free values drawn so far (log entry 5). -/
  draws : Nat
  deriving DecidableEq, Repr

/-- The state after a reset with these configuration inputs (rules R6, R38). DESIGN CHOICE: the values from `cmdStatus` on,
for which the spec gives none (log entry 4). -/
def State.resetWith (cfgThreshold : Byte := Config.defaultThreshold) (cfgRowAligned : Bool := Config.defaultRowAligned) :
    State where
  acc := 0x00#8
  cnt := 0#3
  thresh := cfgThreshold
  rowal := cfgRowAligned
  fault := false
  fcause := .none
  out := []
  cmdStatus := none
  snkOut := none
  inputs := []
  snkResp := some .ok
  sinkBefore := []
  sinkTail := []
  draws := 0

/-- The machine right after reset, the host supplying no configuration (rule R38). -/
def State.reset : State := State.resetWith

/-- The outcome of a command or a step. -/
abbrev StepOutcome := Host.Outcome State Fault Refusal

end Sys2Proof.Machine
end

