-- ==== Sys2Proof/Machine/Flags.lean ====
section
/-! DEFINITION. The conditions and the status code. The CORE has no arithmetic condition codes; its only flag is FAULT, which
Sys2Proof/Machine/Ops.lean sets when a fault is taken (rules R28, R35). -/

namespace Sys2Proof.Machine

/-- The two bits of FCAUSE (rules R29, R140). -/
def FCause.code : FCause → BitVec 2
  | .none => 0
  | .sinkWriteFailure => 1
  | .illegalBitValue => 2
  | .reservedCommand => 3

/-- `CNT = 0`: the accumulator is empty (rules R22, R35). -/
def accEmpty (s : State) : Bool := s.cnt == 0#3

/-- `CNT = 7`: the next bit is the eighth (rule R103). -/
def accAtLastStage (s : State) : Bool := s.cnt == 7#3

end Sys2Proof.Machine
end

