-- ==== Sys2Proof/Machine/Operands.lean ====
section
/-! DEFINITION. Bit positions of the accumulator and the one operand that no command word carries. Immediate operands are
taken from the command word by Sys2Proof/Decode.lean (rule R72). -/

namespace Sys2Proof.Machine

/-- Arrival index `i` maps to bit position `7 - i` of the byte, most significant bit first (rules R10, R21, R53). -/
def stagePos (i : Nat) : Nat := 7 - i

/-- `v[i] <- b`: bit `i` is written, the other bits are unchanged (rule R13). -/
def setBit (v : Byte) (i : Nat) (b : Bool) : Byte :=
  if b then v ||| (1#8 <<< i) else v &&& ~~~(1#8 <<< i)

/-- PIX takes the threshold from THRESH, never from the command word (rules R72, R92). -/
def thresholdOperand (s : State) : Byte := s.thresh

end Sys2Proof.Machine
end

