-- ==== Sys2Proof/Machine/Ops.lean ====
section
/-! DEFINITION. The shared operations: the sink (the CORE's only memory), the accumulator, the completion and the refusal of a
command, taking a fault, and reset. -/

namespace Sys2Proof.Machine

/-! ## The sink -/

/-- The byte index the next write goes to: the only addressing mode is "append" (rule R52). -/
def appendAddr (s : State) : Nat := s.out.length

/-- The byte at index `a` of the stream since reset; `none` where nothing has been written. The CORE itself never reads
(rule R52): this is the model's view of the sink's address space (rule R50). -/
def readByte (s : State) (a : Nat) : Option Byte := s.out[a]?

/-- Everything the sink holds: `S0 ++ OUT ++ T` (rules R30, R147). -/
def sinkContents (s : State) : List Byte := s.sinkBefore ++ s.out ++ s.sinkTail

/-- A memory as a list of addressed bytes. -/
abbrev Memory := List Host.Cell

/-- The canonical form: addresses strictly rising. An unlisted address reads as no value, so no entry can equal it. -/
abbrev Memory.wf (m : Memory) : Prop := (m.map Prod.fst).Pairwise (· < ·)

/-- Reading a byte by its address. -/
def Memory.read (m : Memory) (a : Nat) : Option Byte := m.lookup a

/-- Writing a byte at an address, keeping the canonical form. -/
def Memory.write (m : Memory) (a : Nat) (v : Byte) : Memory :=
  match m with
  | [] => [(a, v)]
  | c :: rest =>
    if a < c.1 then (a, v) :: c :: rest
    else if a = c.1 then (a, v) :: rest
    else c :: Memory.write rest a v

/-- The bytes `bs` at the addresses `base`, `base + 1`, … -/
def Memory.ofBytes (base : Nat) : List Byte → Memory
  | [] => []
  | v :: rest => (base, v) :: Memory.ofBytes (base + 1) rest

/-- The CORE's address space, the sink since reset, as addressed bytes (rule R50). It is computed from OUT, which holds
the same bytes without a hole (rule R20; log entry 1). -/
def memory (s : State) : Memory := Memory.ofBytes 0 s.out

/-- `SinkWrite(v)`: present `v` to the sink and take the sink's answer (rule R52). On `ok` the byte is appended to OUT; on
`fail` OUT is unchanged and the sink may keep any tail (rule R147). `none`: the sink never answers. -/
def sinkWrite (v : Byte) (s : State) : Option SinkResp × State :=
  match s.snkResp with
  | some .ok => (some .ok, { s with out := s.out ++ [v], snkOut := some v })
  | some .fail => (some .fail, { s with sinkTail := Config.sinkTail s.draws, snkOut := some v })
  | none => (none, { s with snkOut := some v })

/-! ## The accumulator -/

/-- The pending bits in arrival order (rules R21, R24). -/
def pending (s : State) : List Bool :=
  (List.range s.cnt.toNat).map fun i => s.acc.getLsbD (stagePos i)

/-- `ACC <- 0x00; CNT <- 0` (rule R102). -/
def clearAccumulator (s : State) : State := { s with acc := 0x00#8, cnt := 0#3 }

/-! ## The end of a command -/

/-- The command executed and completed: `cmd_status = done` (rule R32). -/
def complete (s : State) : State := { s with cmdStatus := some .done }

/-- TAKING A FAULT, `raise Fault(c)` in a state with `FAULT = 0` (rule R146): FAULT and FCAUSE are set, the status is
`faulted`, ACC and CNT are unspecified (free values), everything else is as it was. -/
def raiseFault (c : FCause) (s : State) : State :=
  { s with
    fault := true
    fcause := c
    acc := Config.faultAcc s.draws
    cnt := Config.faultCnt s.draws
    draws := s.draws + 1
    cmdStatus := some .faulted }

/-- A command presented with `FAULT = 1` has no step: nothing changes, nothing is written, the report is `faulted` (rule
R149). -/
def blocked (s : State) : State := { s with cmdStatus := some .faulted, snkOut := none }

/-- Every command reads FAULT first (rules R39, R149, R150); a command that runs begins with no byte on the sink port. -/
def runCommand (body : State → StepOutcome) (s : State) : StepOutcome :=
  if s.fault then .next (blocked s) else body { s with snkOut := none }

/-! ## Reset, the only way out of a fault -/

/-- The state after reset (rules R38, R160, R161), the configuration read from the inputs of this step (rules R26, R27,
R166; log entries 4 and 9). It writes nothing to the sink: what the sink held stays, and becomes the `S0` of the new history. This is also the
only return from a fault (rule R151). -/
def assertReset (p : PortInput) (s : State) : State :=
  { State.resetWith (p.cfgThreshold.getD Config.defaultThreshold) (p.cfgRowAligned.getD Config.defaultRowAligned) with
    inputs := s.inputs
    snkResp := s.snkResp
    sinkBefore := sinkContents s
    draws := s.draws }

/-! ## The outputs -/

/-- The outputs of rule R32: `snk` is `snk_data` where `snk_valid = 1`. -/
structure Outputs where
  snk : Option Byte
  cmdStatus : Option CmdStatus
  fault : Bool
  fcause : BitVec 2
  cnt : Count
  deriving DecidableEq, Repr

/-- What the host and the sink see (rule R32). -/
def outputs (s : State) : Outputs where
  snk := s.snkOut
  cmdStatus := s.cmdStatus
  fault := s.fault
  fcause := s.fcause.code
  cnt := s.cnt

end Sys2Proof.Machine
end

