-- ==== Sys2Proof/Machine/BitPacker.lean ====
section
/-! DEFINITION. The bit accumulator and byte writer (spec/41_bit_packer.md): byte assembly, emission, the commands ADD and
FLUSH. -/

namespace Sys2Proof.Machine

/-- `Mask(k)`: the top `k` bits 1, the rest 0, for `k` in 0 to 8 (rule R101). -/
def mask (k : Nat) : Byte := BitVec.ofNat 8 (256 - 2 ^ (8 - k))

/-- `Assemble(a, k)`: the byte whose top `k` bits are those of `a` and whose other bits are 0, for `k` in 0 to 8 (rule
R100's loop). -/
def assemble (a : Byte) : Nat → Byte
  | 0 => 0x00#8
  | k + 1 => setBit (assemble a k) (stagePos k) (a.getLsbD (stagePos k))

/-- `Emit(v)`: write one byte, then empty the accumulator; a failed write raises SinkWriteFailure and the clearing is not
reached (rules R102, R141). -/
def emit (v : Byte) (s : State) : StepOutcome :=
  match sinkWrite v s with
  | (some .ok, t) => .next (complete (clearAccumulator t))
  | (some .fail, t) => .next (raiseFault .sinkWriteFailure t)
  | (none, _) => .fault .sinkNeverAnswers

/-- `Add(b)`, the body of ADD that PIX calls too (rule R103). -/
def addBit (b : Bool) (s : State) : StepOutcome :=
  let acc := setBit s.acc (stagePos s.cnt.toNat) b
  if accAtLastStage s then emit (assemble acc Config.accCap) { s with acc := acc }
  else .next (complete { s with acc := acc, cnt := s.cnt + 1 })

/-- `Flush()`, the body of FLUSH that EOR calls too (rule R106). -/
def flushBits (s : State) : StepOutcome :=
  if accEmpty s then .next (complete s) else emit (assemble s.acc s.cnt.toNat) s

/-- ADD (rule R103). -/
def execAdd (b : Bool) (s : State) : StepOutcome := runCommand (addBit b) s

/-- FLUSH (rule R106). -/
def execFlush (s : State) : StepOutcome := runCommand flushBits s

end Sys2Proof.Machine
end

