-- ==== Sys2Proof/Machine/RowFlush.lean ====
section
/-! DEFINITION. The row-flush controller and the command EOR (spec/42_row_flush_driver.md). -/

namespace Sys2Proof.Machine

/-- The end of a row: flush in row-aligned mode, nothing in continuous mode (rule R121). -/
def endRow (s : State) : StepOutcome :=
  if s.rowal then flushBits s else .next (complete s)

/-- EOR (rule R121). -/
def execEor (s : State) : StepOutcome := runCommand endRow s

end Sys2Proof.Machine
end

