-- ==== Sys2Proof/Machine/Thresholder.lean ====
section
/-! DEFINITION. The threshold comparator and the command PIX (spec/40_thresholder.md). -/

namespace Sys2Proof.Machine

/-- `Thr(s, t)`: 1 exactly when the sample is strictly greater than the threshold, both unsigned (rules R90, R91). -/
def thr (s t : Byte) : Bool := decide (t.toNat < s.toNat)

/-- PIX: threshold one sample against THRESH and add the bit (rule R92). -/
def execPix (sample : Byte) (s : State) : StepOutcome :=
  runCommand (addBit (thr sample (thresholdOperand s))) s

end Sys2Proof.Machine
end

