-- ==== Sys2Proof/Machine/Dispatch.lean ====
section
/-! DEFINITION. One arm per command (rule R71). -/

namespace Sys2Proof.Machine

def exec (i : Instr) (s : State) : Host.Outcome State Fault Refusal :=
  match i with
  | .add b => Sys2Proof.Machine.execAdd b s
  | .pix sample => Sys2Proof.Machine.execPix sample s
  | .flush => Sys2Proof.Machine.execFlush s
  | .eor => Sys2Proof.Machine.execEor s

end Sys2Proof.Machine
end

