-- ==== Sys2Proof/Machine/Port.lean ====
section
/-! DEFINITION. The command port: what the CORE does with what the host drives in one step (rules R8, R31, R150, R160). -/

namespace Sys2Proof.Machine

/-- The inputs of this step are taken: they leave the list of coming inputs and the sink's answer is on its port. -/
def takeInput (p : PortInput) (rest : List PortInput) (s : State) : State :=
  { s with inputs := rest, snkResp := p.snkResp }

/-- A word that decodes to no command raises its fault at decode, unless FAULT blocks it (rules R142, R143, R150). -/
def rejectWord (c : FCause) (s : State) : StepOutcome :=
  runCommand (fun t => .next (raiseFault c t)) s

/-- The host presents the word `w` (rules R73, R78, R79, R150). -/
def presentWord (w : Word) (s : State) : StepOutcome :=
  match decode w with
  | .command i => exec i s
  | .illegalBitValue => rejectWord .illegalBitValue s
  | .reserved => rejectWord .reservedCommand s

/-- One step with the inputs `p`: reset wins over a command (rule R160); with `cmd_valid = 0` nothing happens (rule
R31). -/
def applyInput (p : PortInput) (s : State) : StepOutcome :=
  if p.rst then .next (assertReset p s)
  else if p.cmdValid then presentWord p.cmd s
  else .next s

/-- The next step: with no input left nothing is presented and the CORE holds its state (rules R31, R156, R163). -/
def nextStep (s : State) : StepOutcome :=
  match s.inputs with
  | [] => .next s
  | p :: rest => applyInput p (takeInput p rest s)

/-- The inputs of a step in which the host presents the word `w` and the sink, if a byte is presented to it, answers
`r`. -/
def commandInput (w : Word) (r : Option SinkResp) : PortInput where
  rst := false
  cfgThreshold := none
  cfgRowAligned := none
  cmdValid := true
  cmd := w
  snkResp := r

/-- The word is put where the next step takes its command from: at the head of the coming inputs. The sink's answer stays
as it is driven now. A number of more than 11 bits is no command word and is not presented (rule R70). -/
def presentNext (s : State) (nbits w : Nat) : State :=
  match tableWord nbits w with
  | some word => { s with inputs := commandInput word s.snkResp :: s.inputs }
  | none => s

end Sys2Proof.Machine
end

