-- ==== Sys2Proof/Machine/Step.lean ====
section
/-! DEFINITION. One step of the machine, and the state in which a given word is the next command. -/

namespace Sys2Proof.Machine

/-- One step (rule R8). -/
def step (s : State) : Host.Outcome State Fault Refusal := nextStep s

/-- `s` with the word presented as the next command: the CORE has no program counter and fetches nothing; commands are
presented by the host (rule R34; log entry 3). -/
def State.withFetchWord (s : State) (nbits w : Nat) : State := presentNext s nbits w

end Sys2Proof.Machine
end

