-- ==== Sys2Proof/Machine/Assembler.lean ====
section
/-! DEFINITION. The textual form of commands (spec/30_encoding.md rule R82): one command a line, upper-case mnemonics, a
semicolon starts a comment, a sample is decimal or 0x-prefixed hexadecimal. There are no pseudo-instructions (rule R83). A
line is a list of characters. -/

namespace Sys2Proof.Machine

/-- The value of a digit. DESIGN CHOICE: in either case of the letters (log entry 12). -/
def digitValue (c : Char) : Option Nat :=
  if 48 ≤ c.toNat ∧ c.toNat ≤ 57 then some (c.toNat - 48)
  else if 65 ≤ c.toNat ∧ c.toNat ≤ 70 then some (c.toNat - 55)
  else if 97 ≤ c.toNat ∧ c.toNat ≤ 102 then some (c.toNat - 87)
  else none

/-- The number whose leading part is `n` and whose further digits are given. -/
def digitsFrom (base n : Nat) : List Char → Option Nat
  | [] => some n
  | c :: rest =>
    match digitValue c with
    | some d => if d < base then digitsFrom base (base * n + d) rest else none
    | none => none

/-- A number of at least one digit. -/
def numeral (base : Nat) (cs : List Char) : Option Nat :=
  if cs.isEmpty then none else digitsFrom base 0 cs

/-- The operand of PIX: 0 to 255, decimal or 0x-prefixed hexadecimal. -/
def sampleLiteral (cs : List Char) : Option Byte :=
  let value := match cs with
    | '0' :: 'x' :: digits => numeral 16 digits
    | digits => numeral 10 digits
  match value with
  | some n => if n < 256 then some (BitVec.ofNat 8 n) else none
  | none => none

/-- The words of a line, the current word's characters being `word`. DESIGN CHOICE: blanks separate them (log entry 13). -/
def lineWords (word : List Char) : List Char → List (List Char)
  | [] => if word.isEmpty then [] else [word]
  | c :: rest =>
    if c = ' ' ∨ c = '\t' then
      if word.isEmpty then lineWords [] rest else word :: lineWords [] rest
    else lineWords (word ++ [c]) rest

/-- The command a line holds: `some []` for a line with no command, `none` for a line that is no command (rule R82). -/
def assembleLine (line : List Char) : Option (List Instr) :=
  match lineWords [] (line.takeWhile (· ≠ ';')) with
  | [] => some []
  | [['A', 'D', 'D'], ['0']] => some [.add false]
  | [['A', 'D', 'D'], ['1']] => some [.add true]
  | [['P', 'I', 'X'], operand] => (sampleLiteral operand).map fun s => [.pix s]
  | [['F', 'L', 'U', 'S', 'H']] => some [.flush]
  | [['E', 'O', 'R']] => some [.eor]
  | _ => none

/-- A listing, one command a line; `none` if some line is no command. -/
def assembleText : List (List Char) → Option (List Instr)
  | [] => some []
  | line :: rest =>
    match assembleLine line, assembleText rest with
    | some first, some more => some (first ++ more)
    | _, _ => none

/-- A sample in decimal. -/
def decimal (s : Byte) : List Char :=
  let n := s.toNat
  let digit := fun d => Char.ofNat (48 + d)
  if n < 10 then [digit n]
  else if n < 100 then [digit (n / 10), digit (n % 10)]
  else [digit (n / 100), digit (n / 10 % 10), digit (n % 10)]

/-- The text of a command (rule R82). -/
def instrText : Instr → List Char
  | .add b => ['A', 'D', 'D', ' ', if b then '1' else '0']
  | .pix s => ['P', 'I', 'X', ' '] ++ decimal s
  | .flush => ['F', 'L', 'U', 'S', 'H']
  | .eor => ['E', 'O', 'R']

end Sys2Proof.Machine
end

