-- ==== Sys2Proof/Machine/ShiftRegister.lean ====
section
/-! DEFINITION. The shifting implementation of the accumulator that spec/10_state.md rule R25 says is equivalent: a second
machine for the same commands, to be compared with the left-justified one. -/

namespace Sys2Proof.Machine

/-- The shifting register `SR` and its fill count. -/
structure ShiftAcc where
  sr : Byte
  n : Count
  deriving DecidableEq, Repr

/-- `(SR << (8 - n)) mod 256`: the pending bits, left-justified (rule R25). -/
def shiftJustified (a : ShiftAcc) : Byte := a.sr <<< (8 - a.n.toNat)

/-- A register that shifts on every added bit and emits `SR` itself when full, without clearing it (rule R25). -/
def shiftAdd (b : Bool) (a : ShiftAcc) : List Byte × ShiftAcc :=
  let sr := a.sr <<< 1 ||| (BitVec.ofBool b).setWidth 8
  if a.n = 7#3 then ([sr], { sr := sr, n := 0#3 }) else ([], { sr := sr, n := a.n + 1 })

/-- Flushed holding `n` bits, it emits `(SR << (8 - n)) mod 256` (rule R25). -/
def shiftFlush (a : ShiftAcc) : List Byte × ShiftAcc :=
  if a.n = 0#3 then ([], a) else ([shiftJustified a], { a with n := 0#3 })

/-- One command on the shifting implementation, every write accepted: the bytes emitted and the register after. -/
def shiftCommand (thresh : Byte) (rowal : Bool) (i : Instr) (a : ShiftAcc) : List Byte × ShiftAcc :=
  match i with
  | .add b => shiftAdd b a
  | .pix s => shiftAdd (thr s thresh) a
  | .flush => shiftFlush a
  | .eor => if rowal then shiftFlush a else ([], a)

/-- A command sequence on the shifting implementation: all bytes emitted, and the register after. -/
def shiftRun (thresh : Byte) (rowal : Bool) : List Instr → ShiftAcc → List Byte × ShiftAcc
  | [], a => ([], a)
  | i :: rest, a =>
    let one := shiftCommand thresh rowal i a
    let more := shiftRun thresh rowal rest one.2
    (one.1 ++ more.1, more.2)

end Sys2Proof.Machine
end

