-- ==== Sys2Proof/Machine/Drive.lean ====
section
/-! DEFINITION. What the rules about whole command sequences are stated over: the packing function (spec/41_bit_packer.md rule
R109), the grid protocol of the host (spec/42_row_flush_driver.md rules R124 to R128) and the list of inputs that presents
a command sequence. The CORE computes none of this (rule R113). -/

namespace Sys2Proof.Machine

/-- `ceil(n / 8)` (rule R11). -/
def bytesFor (n : Nat) : Nat := (n + 7) / 8

/-- Byte `j` of the packed bits: the sum of `b_{8j+i}·2^(7-i)` over `i` from 0 to 7, a missing bit being 0 (rule R109). -/
def packByte (bits : List Bool) (j : Nat) : Byte :=
  BitVec.ofNat 8 ((List.range 8).map fun i => (bits.getD (8 * j + i) false).toNat * 2 ^ (7 - i)).sum

/-- `Pack(B)` (rule R109). -/
def pack (bits : List Bool) : List Byte :=
  (List.range (bytesFor bits.length)).map (packByte bits)

/-- The bits of a byte sequence in arrival order, most significant bit first (rules R53, R54). -/
def bitsOf (bytes : List Byte) : List Bool :=
  bytes.flatMap fun v => (List.range 8).map fun i => v.getLsbD (stagePos i)

/-- The luminance grid `G`: the sample of row `r`, column `c` (rule R7). It is the host's (rule R36). -/
abbrev Grid := Nat → Nat → Byte

/-- `Bit(r, c)` (rule R126). -/
def pixelBit (g : Grid) (thresh : Byte) (r c : Nat) : Bool := thr (g r c) thresh

/-- `RowBits(r)` (rule R126). -/
def rowBits (g : Grid) (thresh : Byte) (w r : Nat) : List Bool :=
  (List.range w).map (pixelBit g thresh r)

/-- `GridBits` (rule R126). -/
def gridBits (g : Grid) (thresh : Byte) (w h : Nat) : List Bool :=
  (List.range h).flatMap (rowBits g thresh w)

/-- The commands of one row: its samples, then EOR (rules R124, R125). -/
def driveRow (g : Grid) (w r : Nat) : List Instr :=
  (List.range w).map (fun c => Instr.pix (g r c)) ++ [.eor]

/-- `Drive(G, W, H)` (rule R125). -/
def drive (g : Grid) (w h : Nat) : List Instr :=
  (List.range h).flatMap (driveRow g w) ++ [.flush]

/-- The stream of a whole grid in row-aligned mode: each row packed by itself (rule R127). -/
def packedRows (g : Grid) (thresh : Byte) (w h : Nat) : List Byte :=
  (List.range h).flatMap fun r => pack (rowBits g thresh w r)

/-- The stream of a whole grid in either mode (rules R127, R128). -/
def packedGrid (rowal : Bool) (g : Grid) (thresh : Byte) (w h : Nat) : List Byte :=
  if rowal then packedRows g thresh w h else pack (gridBits g thresh w h)

/-- The inputs that present these commands, one a step, each with the sink's answer in its step (rules R8, R31, R163). -/
def presented (cmds : List (Instr × Option SinkResp)) : List PortInput :=
  cmds.map fun c => commandInput (encode c.1) c.2

end Sys2Proof.Machine
end

