-- ==== Sys2Proof/Safety.lean ====
section
/-! DEFINITION. What counts as a safe state and a clean end, in the terms the statements use. -/

namespace Sys2Proof.Machine

/-- The zero-below-the-fill invariant: `ACC mod 2^(8-CNT) = 0` (rule R23). -/
abbrev ZeroBelowFill (s : State) : Prop := s.acc.toNat % 2 ^ (8 - s.cnt.toNat) = 0

/-- The invariant of the CORE. -/
structure CoreInv (s : State) : Prop where
  /-- Rules R23, R111 (b). After a fault ACC and CNT are unspecified (rule R146). -/
  zeroBelowFill : s.fault = false → ZeroBelowFill s
  /-- Rule R29: `FAULT = 0` implies `FCAUSE = 0`, and `FAULT = 1` implies a cause. -/
  causeAgrees : s.fault = true ↔ s.fcause ≠ .none
  /-- The report is `faulted` exactly in a fault state: rule R32 for a presented command, DESIGN CHOICE for an idle step
  (log entry 2) and after a reset (log entry 4). -/
  statusAgrees : s.fault = true ↔ s.cmdStatus = some .faulted
  /-- Rules R30, R147: only a failed write leaves anything in the sink beyond OUT. -/
  tailOnlyOnFailure : s.fcause ≠ .sinkWriteFailure → s.sinkTail = []

/-- The command presents a byte to the sink when it executes (rule R141). -/
def writesByte (i : Instr) (s : State) : Bool :=
  match i with
  | .add _ => s.cnt == 7#3
  | .pix _ => s.cnt == 7#3
  | .flush => s.cnt != 0#3
  | .eor => s.rowal && s.cnt != 0#3

/-- `n` steps, stopping where a step stops: `Host.Core.run` of this machine, written over its own types. -/
def runSteps : Nat → State → StepOutcome
  | 0, s => .next s
  | n + 1, s =>
    match step s with
    | .next t => runSteps n t
    | .fault r => .fault r
    | .refused r => .refused r

/-- A run is over with nothing lost: the list is exhausted, `FAULT = 0` and `CNT = 0` (rule R163). -/
abbrev CleanEnd (s : State) : Prop := s.inputs = [] ∧ s.fault = false ∧ s.cnt = 0#3

/-- The host presents a command in the next step (rule R31): the inputs `p`, then the inputs `rest`. -/
abbrev PresentsCommand (s : State) (p : PortInput) (rest : List PortInput) : Prop :=
  s.inputs = p :: rest ∧ p.rst = false ∧ p.cmdValid = true

/-- The two states differ in nothing but how the same pending bits are held (rule R24). -/
def SamePending (s t : State) : Prop :=
  pending s = pending t ∧ clearAccumulator s = clearAccumulator t

end Sys2Proof.Machine
end

