-- ==== Sys2Proof/Certificates/Slice0/Obligations.lean ====
section
/-! DEFINITION. The statements for the provers. Each docstring names the rules of spec/ the statement formalises. A run of `n`
steps is `runSteps n`. -/

open Sys2Proof Sys2Proof.Machine

/-! ## Encoding -/

/-- The words of spec/95_test_vectors.md V-DEC, written out bit by bit from rules R74 to R79, decode as listed. -/
def Obligations.EncodedWordsDecode : Prop :=
  decode 0b00000000000#11 = .command (.add false) ∧
  decode 0b00000000001#11 = .command (.add true) ∧
  decode 0b00000000011#11 = .illegalBitValue ∧
  decode 0b00010000000#11 = .illegalBitValue ∧
  decode 0b00101100100#11 = .command (.pix 100#8) ∧
  decode 0b00111111111#11 = .command (.pix 255#8) ∧
  decode 0b01000000000#11 = .command .flush ∧
  decode 0b01000000001#11 = .reserved ∧
  decode 0b01100000000#11 = .command .eor ∧
  decode 0b01111111111#11 = .reserved ∧
  decode 0b10000000000#11 = .reserved

/-- Rule R73: the decoder as a function of the word's number, for all 2048 words, and its word counts. -/
def Obligations.DecoderFollowsOpcodeMap : Prop :=
  (∀ w : Word, decode w =
    if w.toNat = 0 then .command (.add false)
    else if w.toNat = 1 then .command (.add true)
    else if w.toNat < 256 then .illegalBitValue
    else if w.toNat < 512 then .command (.pix (BitVec.ofNat 8 (w.toNat - 256)))
    else if w.toNat = 512 then .command .flush
    else if w.toNat < 768 then .reserved
    else if w.toNat = 768 then .command .eor
    else .reserved) ∧
  ((List.range 2048).countP fun n => decode (BitVec.ofNat 11 n) matches .command (.add _)) = 2 ∧
  ((List.range 2048).countP fun n => decode (BitVec.ofNat 11 n) matches .command (.pix _)) = 256 ∧
  ((List.range 2048).countP fun n => decode (BitVec.ofNat 11 n) == .command .flush) = 1 ∧
  ((List.range 2048).countP fun n => decode (BitVec.ofNat 11 n) == .command .eor) = 1 ∧
  ((List.range 2048).countP fun n => decode (BitVec.ofNat 11 n) == .illegalBitValue) = 254 ∧
  ((List.range 2048).countP fun n => decode (BitVec.ofNat 11 n) == .reserved) = 1534

/-- Rules R74 to R77: a word selects a command exactly by that command's match and mask, the operand is the named field of
the word, and the opcode table written apart from the decoder selects exactly the words that decode to a command. -/
def Obligations.MatchAndMaskSelectCommands : Prop :=
  ∀ w : Word,
    (w &&& 0x7FE#11 = 0x000#11 → decode w = .command (.add (w.getLsbD 0))) ∧
    (w &&& 0x700#11 = 0x100#11 → decode w = .command (.pix (BitVec.ofNat 8 w.toNat))) ∧
    (w &&& 0x7FF#11 = 0x200#11 → decode w = .command .flush) ∧
    (w &&& 0x7FF#11 = 0x300#11 → decode w = .command .eor) ∧
    (∀ i, decode w = .command i →
      match i with
      | .add _ => w &&& 0x7FE#11 = 0x000#11 ∧ (w = 0x000#11 ∨ w = 0x001#11)
      | .pix _ => w &&& 0x700#11 = 0x100#11 ∧ 0x100 ≤ w.toNat ∧ w.toNat ≤ 0x1FF
      | .flush => w &&& 0x7FF#11 = 0x200#11 ∧ w = 0x200#11
      | .eor => w &&& 0x7FF#11 = 0x300#11 ∧ w = 0x300#11) ∧
    (wordWf w = true ↔ ∃ i, decode w = .command i) ∧
    decode 0x164#11 = .command (.pix 100#8)

/-- Decode and encode agree in both directions, for every word and every command with every operand (rules R70 to R77):
a word has at most one meaning and every command has exactly one word. -/
def Obligations.DecodeInvertsEncode : Prop :=
  ∀ (w : Word) (i : Instr), decode w = .command i ↔ encode i = w

/-- Rule R82: the textual form of a command reads back as that command, and a comment after it is ignored. -/
def Obligations.CommandTextReadsBack : Prop :=
  ∀ (i : Instr) (comment : List Char),
    assembleLine (instrText i) = some [i] ∧ assembleLine (instrText i ++ ';' :: comment) = some [i]

/-! ## The step and the ports -/

/-- A presented word that decodes to a command runs that command: the step is `exec` of it in the state whose inputs have
been taken (rules R8, R73, R150). -/
def Obligations.StepRunsDecodedCommand : Prop :=
  ∀ (s : State) (p : PortInput) (rest : List PortInput) (i : Instr),
    PresentsCommand s p rest → decode p.cmd = .command i →
    step s = exec i { s with inputs := rest, snkResp := p.snkResp }

/-- Rule R31 with rule R156: with nothing presented (no input left, or `cmd_valid = 0` without `rst`) the CORE holds its
state. That the outputs of the last command stand meanwhile is the MODEL's choice (log entry 2). -/
def Obligations.IdleCoreHoldsItsState : Prop :=
  ∀ (s : State),
    (s.inputs = [] → step s = .next s) ∧
    (∀ p rest, s.inputs = p :: rest → p.rst = false → p.cmdValid = false →
      step s = .next { s with inputs := rest, snkResp := p.snkResp })

/-- Rules R78, R79, R142, R143: presenting an illegal bit value takes Fault(2) and presenting a reserved word takes
Fault(3), whatever the sink would answer, and no byte is presented to the sink. ACC and CNT are left open (rule R146). -/
def Obligations.RejectedWordsTakeTheirFault : Prop :=
  ∀ (s : State) (p : PortInput) (rest : List PortInput),
    PresentsCommand s p rest → s.fault = false →
    ((2 ≤ p.cmd.toNat ∧ p.cmd.toNat ≤ 0x0FF) →
      ∃ t, step s = .next t ∧ t.fault = true ∧ t.fcause.code = 2#2 ∧ t.cmdStatus = some .faulted ∧ t.out = s.out ∧
        t.thresh = s.thresh ∧ t.rowal = s.rowal ∧ t.snkOut = none ∧ sinkContents t = sinkContents s) ∧
    ((0x201 ≤ p.cmd.toNat ∧ p.cmd.toNat ≤ 0x2FF ∨ 0x301 ≤ p.cmd.toNat) →
      ∃ t, step s = .next t ∧ t.fault = true ∧ t.fcause.code = 3#2 ∧ t.cmdStatus = some .faulted ∧ t.out = s.out ∧
        t.thresh = s.thresh ∧ t.rowal = s.rowal ∧ t.snkOut = none ∧ sinkContents t = sinkContents s)

/-- A step answers a next state but in one case: a command presents a byte and the sink never answers (rules R14, R171;
the stop is the model's choice among spec/93_implementation_defined.md U6, log entry 7). -/
def Obligations.StepStopsOnlyOnSilentSink : Prop :=
  ∀ s : State,
    ((∃ p rest i, PresentsCommand s p rest ∧ decode p.cmd = .command i ∧ s.fault = false ∧ writesByte i s = true ∧
        p.snkResp = none) ∧ step s = .fault .sinkNeverAnswers) ∨
    ((¬ ∃ p rest i, PresentsCommand s p rest ∧ decode p.cmd = .command i ∧ s.fault = false ∧ writesByte i s = true ∧
        p.snkResp = none) ∧ ∃ t, step s = .next t)

/-! ## The comparator and PIX -/

/-- Rules R90, R93: the comparison is strict and unsigned; equality and threshold 255 give 0; with threshold 0 every
sample but 0 gives 1; for a fixed threshold exactly `255 - t` of the 256 samples give 1, and `Thr` is monotone. -/
def Obligations.ThresholdIsStrictAndUnsigned : Prop :=
  (∀ s t : Byte, thr s t = true ↔ t.toNat + 1 ≤ s.toNat) ∧
  (∀ t : Byte, thr t t = false) ∧
  (∀ s : Byte, thr s 255#8 = false) ∧
  (∀ s : Byte, thr s 0#8 = true ↔ 1 ≤ s.toNat) ∧
  thr 100#8 100#8 = false ∧ thr 101#8 100#8 = true ∧
  (∀ s s' t : Byte, s.toNat ≤ s'.toNat → thr s t = true → thr s' t = true) ∧
  (∀ t : Byte, ((List.range 256).countP fun n => thr (BitVec.ofNat 8 n) t) = 255 - t.toNat)

/-- Rule R92: PIX compares the sample with THRESH, strictly, and puts the bit into stage CNT; as the eighth bit it writes
the byte and empties the accumulator, and a failed write is a fault of cause 1. ROWAL and the rest of the state have no
influence and do not change. Its words are 0x100 to 0x1FF. In every state, whatever the outcome, PIX has exactly the effect of the ADD of its bit. -/
def Obligations.PixPutsThresholdedBit : Prop :=
  (∀ x : Byte, decode (BitVec.ofNat 11 (0x100 + x.toNat)) = .command (.pix x)) ∧
  (∀ (s : State) (x : Byte), exec (.pix x) s = exec (.add (decide (s.thresh.toNat < x.toNat))) s) ∧
  ∀ (s : State) (x : Byte), s.fault = false →
    ∃ a : Byte,
      (∀ j < 8, a.getLsbD j = if j = 7 - s.cnt.toNat then decide (s.thresh.toNat < x.toNat) else s.acc.getLsbD j) ∧
      (s.cnt.toNat < 7 →
        exec (.pix x) s = .next { s with acc := a, cnt := s.cnt + 1, cmdStatus := some .done, snkOut := none }) ∧
      (s.cnt.toNat = 7 → s.snkResp = some .ok →
        exec (.pix x) s = .next { s with acc := 0x00#8, cnt := 0#3, out := s.out ++ [a], cmdStatus := some .done,
                                         snkOut := some a }) ∧
      (s.cnt.toNat = 7 → s.snkResp = some .fail →
        ∃ t, exec (.pix x) s = .next t ∧ t.fault = true ∧ t.fcause.code = 1#2 ∧ t.cmdStatus = some .faulted ∧
          t.out = s.out ∧ t.thresh = s.thresh ∧ t.rowal = s.rowal)

/-! ## ADD -/

/-- Rule R103: ADD writes its bit into stage CNT and leaves the other stages; as the eighth bit it writes the byte and
empties the accumulator, and a failed write is a fault of cause 1. Its words are 0x000 and 0x001. -/
def Obligations.AddPutsBitInNextStage : Prop :=
  decode 0x000#11 = .command (.add false) ∧ decode 0x001#11 = .command (.add true) ∧
  ∀ (s : State) (b : Bool), s.fault = false →
    ∃ a : Byte,
      (∀ j < 8, a.getLsbD j = if j = 7 - s.cnt.toNat then b else s.acc.getLsbD j) ∧
      (s.cnt.toNat < 7 →
        exec (.add b) s = .next { s with acc := a, cnt := s.cnt + 1, cmdStatus := some .done, snkOut := none }) ∧
      (s.cnt.toNat = 7 → s.snkResp = some .ok →
        exec (.add b) s = .next { s with acc := 0x00#8, cnt := 0#3, out := s.out ++ [a], cmdStatus := some .done,
                                         snkOut := some a }) ∧
      (s.cnt.toNat = 7 → s.snkResp = some .fail →
        ∃ t, exec (.add b) s = .next t ∧ t.fault = true ∧ t.fcause.code = 1#2 ∧ t.cmdStatus = some .faulted ∧
          t.out = s.out ∧ t.thresh = s.thresh ∧ t.rowal = s.rowal)

/-- Rule R104: the effect of ADD by fill count, as a sum that never carries, in a state with zeros below the fill. -/
def Obligations.AddByFillCountIsASum : Prop :=
  ∀ (s : State) (b : Bool), s.fault = false → ZeroBelowFill s →
    s.acc.toNat + b.toNat * 2 ^ (7 - s.cnt.toNat) < 256 ∧
    (s.cnt.toNat < 7 →
      ∃ t, exec (.add b) s = .next t ∧ t.acc.toNat = s.acc.toNat + b.toNat * 2 ^ (7 - s.cnt.toNat) ∧
        t.cnt.toNat = s.cnt.toNat + 1 ∧ t.out = s.out) ∧
    (s.cnt.toNat = 7 → s.snkResp = some .ok →
      ∃ t v, exec (.add b) s = .next t ∧ t.acc = 0x00#8 ∧ t.cnt = 0#3 ∧ t.out = s.out ++ [v] ∧
        v.toNat = s.acc.toNat + b.toNat)

/-- Rule R105: the byte of a full accumulator is written by the command that supplies the eighth bit, and a FLUSH after it
writes nothing. -/
def Obligations.EighthBitEmitsAtOnce : Prop :=
  ∀ (s : State) (i : Instr), ((∃ b, i = .add b) ∨ ∃ x, i = .pix x) →
    s.fault = false → s.cnt.toNat = 7 → s.snkResp = some .ok →
    ∃ t v, exec i s = .next t ∧ t.out = s.out ++ [v] ∧ t.cnt = 0#3 ∧ t.fault = false ∧
      exec .flush t = .next { t with snkOut := none, cmdStatus := some .done }

/-! ## Byte assembly and FLUSH -/

/-- Rules R100, R101: `Assemble(a, k)` keeps the top `k` bits and clears the rest, equals `a AND Mask(k)`, has the value
`b0·2^7 + … + b_{k-1}·2^(7-(k-1))`, and is ACC itself for `k = CNT` where zeros stand below the fill. -/
def Obligations.AssembleKeepsTopBits : Prop :=
  ∀ (a : Byte) (k : Nat), k ≤ 8 →
    (mask k).toNat = 256 - 2 ^ (8 - k) ∧
    assemble a k = a &&& mask k ∧
    (∀ j < 8, (assemble a k).getLsbD j = (decide (8 - k ≤ j) && a.getLsbD j)) ∧
    (assemble a k).toNat = ((List.range k).map fun i => (a.getLsbD (7 - i)).toNat * 2 ^ (7 - i)).sum ∧
    (∀ s : State, ZeroBelowFill s → assemble s.acc s.cnt.toNat = s.acc)

/-- Rules R106, R107: FLUSH with `CNT = 0` does nothing and cannot fault whatever the sink would answer; with pending bits
it writes the byte `ACC AND Mask(CNT)` and empties the accumulator; a failed write is a fault of cause 1. Its word is
0x200. -/
def Obligations.FlushByFillCount : Prop :=
  decode 0x200#11 = .command .flush ∧
  ∀ s : State, s.fault = false →
    (s.cnt.toNat = 0 → exec .flush s = .next { s with cmdStatus := some .done, snkOut := none }) ∧
    (0 < s.cnt.toNat → s.snkResp = some .ok →
      exec .flush s = .next { s with acc := 0x00#8, cnt := 0#3,
                                     out := s.out ++ [s.acc &&& BitVec.ofNat 8 (256 - 2 ^ (8 - s.cnt.toNat))],
                                     cmdStatus := some .done,
                                     snkOut := some (s.acc &&& BitVec.ofNat 8 (256 - 2 ^ (8 - s.cnt.toNat))) }) ∧
    (0 < s.cnt.toNat → s.snkResp = some .fail →
      ∃ t, exec .flush s = .next t ∧ t.fault = true ∧ t.fcause.code = 1#2 ∧ t.cmdStatus = some .faulted ∧
        t.out = s.out ∧ t.thresh = s.thresh ∧ t.rowal = s.rowal)

/-- Rule R108: any number of FLUSH commands after a completed one changes nothing and presents no byte, whatever the sink
would answer. -/
def Obligations.RepeatedFlushIsIdempotent : Prop :=
  ∀ (s t : State) (answers : List (Option SinkResp)) (rest : List PortInput),
    exec .flush s = .next t → t.fault = false →
    t.inputs = presented (answers.map fun r => (.flush, r)) ++ rest →
    ∃ u, runSteps answers.length t = .next u ∧
      u.acc = t.acc ∧ u.cnt = 0#3 ∧ u.out = t.out ∧ u.fault = false ∧ u.fcause = t.fcause ∧ u.thresh = t.thresh ∧
      u.rowal = t.rowal ∧ sinkContents u = sinkContents t ∧ u.inputs = rest

/-! ## EOR -/

/-- Rules R121, R122: in row-aligned mode EOR is FLUSH; in continuous mode it does nothing and cannot fault. In
row-aligned mode with pending bits it writes the padded byte. Its word is 0x300. -/
def Obligations.EorFlushesOnlyWhenRowAligned : Prop :=
  decode 0x300#11 = .command .eor ∧
  ∀ s : State,
    (s.rowal = true → exec .eor s = exec .flush s) ∧
    (s.fault = false → (s.rowal = false ∨ s.cnt.toNat = 0) →
      exec .eor s = .next { s with cmdStatus := some .done, snkOut := none }) ∧
    (s.fault = false → s.rowal = true → 0 < s.cnt.toNat → s.snkResp = some .ok →
      exec .eor s = .next { s with acc := 0x00#8, cnt := 0#3, out := s.out ++ [assemble s.acc s.cnt.toNat],
                                   cmdStatus := some .done, snkOut := some (assemble s.acc s.cnt.toNat) }) ∧
    (s.fault = false → s.rowal = true → 0 < s.cnt.toNat → s.snkResp = some .fail →
      ∃ t, exec .eor s = .next t ∧ t.fault = true ∧ t.fcause.code = 1#2 ∧ t.out = s.out)

/-! ## Completion, faults -/

/-- Rules R14, R141: in a state with `FAULT = 0` every command completes and reports `done` unless it presents a byte that
the sink does not accept. -/
def Obligations.EveryCommandCompletes : Prop :=
  ∀ (s : State) (i : Instr), s.fault = false → (writesByte i s = true → s.snkResp = some .ok) →
    ∃ t, exec i s = .next t ∧ t.cmdStatus = some .done ∧ t.fault = false ∧ t.fcause = s.fcause

/-- Rule R145: which presented word raises what, and exactly when. -/
def Obligations.FaultTableOfCommands : Prop :=
  ∀ (s t : State) (p : PortInput) (rest : List PortInput),
    PresentsCommand s p rest → s.fault = false → step s = .next t →
    match decode p.cmd with
    | .command (.add _) =>
      (t.fault = true ↔ s.cnt.toNat = 7 ∧ p.snkResp = some .fail) ∧ (t.fault = true → t.fcause.code = 1#2)
    | .command (.pix _) =>
      (t.fault = true ↔ s.cnt.toNat = 7 ∧ p.snkResp = some .fail) ∧ (t.fault = true → t.fcause.code = 1#2)
    | .command .flush =>
      (t.fault = true ↔ s.cnt.toNat ≠ 0 ∧ p.snkResp = some .fail) ∧ (t.fault = true → t.fcause.code = 1#2)
    | .command .eor =>
      (t.fault = true ↔ s.rowal = true ∧ s.cnt.toNat ≠ 0 ∧ p.snkResp = some .fail) ∧
        (t.fault = true → t.fcause.code = 1#2)
    | .illegalBitValue => t.fault = true ∧ t.fcause.code = 2#2
    | .reserved => t.fault = true ∧ t.fcause.code = 3#2

/-- Rule R146: a fault is raised only by a presented word; FAULT is then 1 and FCAUSE is the code of what raised it, OUT,
THRESH and ROWAL are as before, and the report is `faulted`. Nothing is said of ACC and CNT. -/
def Obligations.FaultEntryKeepsOutput : Prop :=
  ∀ s t : State, s.fault = false → step s = .next t → t.fault = true →
    t.out = s.out ∧ t.thresh = s.thresh ∧ t.rowal = s.rowal ∧ t.cmdStatus = some .faulted ∧
    ∃ p rest, PresentsCommand s p rest ∧
      t.fcause.code =
        match decode p.cmd with
        | .command _ => 1#2
        | .illegalBitValue => 2#2
        | .reserved => 3#2

/-- Rule R149: in a state with `FAULT = 1` a presented word, of whatever kind, changes no state, presents no byte and
reports `faulted`. -/
def Obligations.FaultedCoreExecutesNothing : Prop :=
  ∀ s : State, s.fault = true →
    (∀ i, exec i s = .next { s with cmdStatus := some .faulted, snkOut := none }) ∧
    (∀ p rest, PresentsCommand s p rest →
      step s = .next { s with inputs := rest, snkResp := p.snkResp, cmdStatus := some .faulted, snkOut := none })

/-- Rules R28, R150, R151: FAULT and its cause stay as they are until reset; only a step with `rst` leaves a fault state. -/
def Obligations.OnlyResetLeavesFault : Prop :=
  ∀ s t : State, s.fault = true → step s = .next t →
    (t.fault = true ∧ t.fcause = s.fcause) ∨ ∃ p rest, s.inputs = p :: rest ∧ p.rst = true

/-! ## The sink -/

/-- The frame of ADD and PIX. A next state differs from the state before at most in: ACC and CNT; OUT at the append
address and only when `CNT = 7`; FAULT, FCAUSE, and what a failing sink keeps, only when the sink fails the write; the
outputs; the model's counter of free values. Rules R39, R92, R103, R146. -/
def Obligations.FrameOfAddAndPix : Prop :=
  ∀ (s t : State) (i : Instr), ((∃ b, i = .add b) ∨ ∃ x, i = .pix x) → exec i s = .next t →
    t.thresh = s.thresh ∧ t.rowal = s.rowal ∧ t.inputs = s.inputs ∧ t.snkResp = s.snkResp ∧
    t.sinkBefore = s.sinkBefore ∧
    (¬ (s.fault = false ∧ s.cnt.toNat = 7 ∧ s.snkResp = some .fail) →
      t.fault = s.fault ∧ t.fcause = s.fcause ∧ t.sinkTail = s.sinkTail ∧ t.draws = s.draws) ∧
    (∀ a, a ≠ appendAddr s → readByte t a = readByte s a) ∧
    (¬ (s.fault = false ∧ s.cnt.toNat = 7 ∧ s.snkResp = some .ok) → ∀ a, readByte t a = readByte s a)

/-- The frame of FLUSH and EOR. As for ADD and PIX, but a byte is stored only with pending bits (and, for EOR, in
row-aligned mode); ACC and CNT change only when a byte is presented. Rules R39, R106, R121, R146. -/
def Obligations.FrameOfFlushAndEor : Prop :=
  ∀ (s t : State) (i : Instr), (i = .flush ∨ i = .eor) → exec i s = .next t →
    t.thresh = s.thresh ∧ t.rowal = s.rowal ∧ t.inputs = s.inputs ∧ t.snkResp = s.snkResp ∧
    t.sinkBefore = s.sinkBefore ∧
    (¬ (s.fault = false ∧ s.cnt.toNat ≠ 0 ∧ (i = .flush ∨ s.rowal = true)) → t.acc = s.acc ∧ t.cnt = s.cnt) ∧
    (¬ (s.fault = false ∧ s.cnt.toNat ≠ 0 ∧ (i = .flush ∨ s.rowal = true) ∧ s.snkResp = some .fail) →
      t.fault = s.fault ∧ t.fcause = s.fcause ∧ t.sinkTail = s.sinkTail ∧ t.draws = s.draws) ∧
    (∀ a, a ≠ appendAddr s → readByte t a = readByte s a) ∧
    (¬ (s.fault = false ∧ s.cnt.toNat ≠ 0 ∧ (i = .flush ∨ s.rowal = true) ∧ s.snkResp = some .ok) →
      ∀ a, readByte t a = readByte s a)

/-- Rules R30, R110: a step without `rst` either leaves OUT unchanged or appends exactly one byte, which is the byte
presented to the sink and was accepted by it. -/
def Obligations.StepAppendsAtMostOneByte : Prop :=
  ∀ s t : State, step s = .next t → (∀ p rest, s.inputs = p :: rest → p.rst = false) →
    t.out = s.out ∨
    ∃ p rest v, s.inputs = p :: rest ∧ p.snkResp = some .ok ∧ t.out = s.out ++ [v] ∧ t.snkOut = some v ∧
      t.fault = false

/-- Rules R30, R147, R161: the sink only grows. No step, not even a reset, removes a byte from it; while `FAULT = 0` it
holds `S0 ++ OUT`; a faulting step appends only the tail `T`, and a step in a fault state appends nothing. -/
def Obligations.SinkIsNeverRolledBack : Prop :=
  ∀ s t : State, CoreInv s → step s = .next t →
    (∃ more, sinkContents t = sinkContents s ++ more) ∧
    (t.fault = false → sinkContents t = t.sinkBefore ++ t.out) ∧
    (s.fault = true → sinkContents t = sinkContents s) ∧
    (s.fault = false → t.fault = true → t.out = s.out ∧ t.sinkBefore = s.sinkBefore ∧
      sinkContents t = s.sinkBefore ++ s.out ++ t.sinkTail)

/-! ## Reset and configuration -/

/-- Rule R38: every element of state after a reset, with the configuration the host gave and with the defaults. -/
def Obligations.ResetValues : Prop :=
  (∀ (t : Byte) (r : Bool),
    (State.resetWith t r).cnt = 0#3 ∧ (State.resetWith t r).acc = 0x00#8 ∧ (State.resetWith t r).thresh = t ∧
    (State.resetWith t r).rowal = r ∧ (State.resetWith t r).fault = false ∧ (State.resetWith t r).fcause.code = 0#2 ∧
    (State.resetWith t r).out = []) ∧
  State.reset = State.resetWith 100#8 true

/-- Rules R38, R160, R161: `rst` acts in every state, wins over a command presented in the same step, loads the
configuration (or its defaults), clears the fault and discards the pending bits, and writes nothing to the sink. -/
def Obligations.ResetActsInEveryState : Prop :=
  ∀ (s : State) (p : PortInput) (rest : List PortInput), s.inputs = p :: rest → p.rst = true →
    ∃ t, step s = .next t ∧ t.acc = 0x00#8 ∧ t.cnt = 0#3 ∧ t.fault = false ∧ t.fcause = .none ∧ t.out = [] ∧
      t.thresh = p.cfgThreshold.getD 100#8 ∧ t.rowal = p.cfgRowAligned.getD true ∧ t.snkOut = none ∧
      pending t = [] ∧ sinkContents t = sinkContents s ∧ t.inputs = rest

/-- Rule R166: THRESH and ROWAL change only at reset, and what the host drives on the configuration inputs at any other
step has no effect. -/
def Obligations.ConfigurationIsFrozenBetweenResets : Prop :=
  (∀ s t : State, step s = .next t → (∀ p rest, s.inputs = p :: rest → p.rst = false) →
    t.thresh = s.thresh ∧ t.rowal = s.rowal) ∧
  (∀ (s : State) (p : PortInput) (rest : List PortInput) (c : Option Byte) (r : Option Bool), p.rst = false →
    step { s with inputs := { p with cfgThreshold := c, cfgRowAligned := r } :: rest } =
      step { s with inputs := p :: rest })

/-! ## Invariants -/

/-- The invariant holds after reset with every configuration (rules R23, R29, R38). Its clauses on the report and on the
sink's tail rest on the MODEL's values of those fields after reset (DESIGN CHOICE, log entry 4). -/
def Obligations.ResetMeetsInvariant : Prop :=
  ∀ (t : Byte) (r : Bool), CoreInv (State.resetWith t r)

/-- Every step keeps the invariant: zeros below the fill while `FAULT = 0`, FCAUSE and the report agree with FAULT, and
nothing but a failed write leaves a tail in the sink (rules R23, R29, R111, R147). The clause on the report is in part the
MODEL's choice: rule R32 says what is reported on a presented command, not what stands on `cmd_status` in an idle step (it
stands as it was: DESIGN CHOICE, log entry 2) or after a reset (there is no report: DESIGN CHOICE, log entry 4). That a
reset leaves no tail, the old sink contents becoming `S0`, is the model's form of rule R161 (log entry 4). -/
def Obligations.StepKeepsInvariant : Prop :=
  ∀ s t : State, CoreInv s → step s = .next t → CoreInv t

/-- Rule R111: what every command that completes keeps. -/
def Obligations.CompletedCommandKeeps : Prop :=
  ∀ (s t : State) (i : Instr), s.fault = false → ZeroBelowFill s → exec i s = .next t → t.fault = false →
    t.cnt.toNat ≤ 7 ∧ ZeroBelowFill t ∧ s.out <+: t.out ∧ t.thresh = s.thresh ∧ t.rowal = s.rowal

/-- Rule R112: bits are never reordered, merged or dropped by a command. Reading OUT and then the pending bits as one bit
sequence, a command that completes appends its bit (ADD, PIX), or the padding zeros of the byte it emits (FLUSH, EOR), or
nothing. -/
def Obligations.CommandsAppendBitsInOrder : Prop :=
  ∀ (s t : State) (i : Instr), s.fault = false → exec i s = .next t → t.fault = false →
    bitsOf t.out ++ pending t = bitsOf s.out ++ pending s ++
      (match i with
       | .add b => [b]
       | .pix x => [thr x s.thresh]
       | .flush => if s.cnt = 0#3 then [] else List.replicate (8 - s.cnt.toNat) false
       | .eor => if s.rowal = false ∨ s.cnt = 0#3 then [] else List.replicate (8 - s.cnt.toNat) false)

/-! ## What cannot be observed -/

/-- Rule R24: two states with the same pending bits and the same other registers are indistinguishable: their outputs are
the same, and a step takes them to such states again or stops both in the same way. What stands in ACC below the fill has
no effect. -/
def Obligations.SamePendingBitsAreIndistinguishable : Prop :=
  ∀ s s' : State, SamePending s s' →
    outputs s = outputs s' ∧
    ((∃ t t', step s = .next t ∧ step s' = .next t' ∧ SamePending t t') ∨
     ∃ r, step s = .fault r ∧ step s' = .fault r)

/-- Rule R25: a shifting register that is not cleared after an emission emits the same bytes as the left-justified ACC, and
at every moment `ACC = (SR << (8 - CNT)) mod 256`, for every command sequence with every write accepted. -/
def Obligations.ShiftRegisterEmitsSameBytes : Prop :=
  ∀ (cmds : List Instr) (s : State) (sr : Byte) (rest : List PortInput),
    s.fault = false → s.acc = shiftJustified { sr := sr, n := s.cnt } →
    s.inputs = presented (cmds.map fun i => (i, some .ok)) ++ rest →
    ∃ t, runSteps cmds.length s = .next t ∧ t.fault = false ∧ t.inputs = rest ∧
      t.out = s.out ++ (shiftRun s.thresh s.rowal cmds { sr := sr, n := s.cnt }).1 ∧
      t.cnt = (shiftRun s.thresh s.rowal cmds { sr := sr, n := s.cnt }).2.n ∧
      t.acc = shiftJustified (shiftRun s.thresh s.rowal cmds { sr := sr, n := s.cnt }).2

/-! ## Command sequences -/

/-- Rule R109: `N` ADD commands from an empty accumulator leave `N mod 8` bits pending and have written `N div 8` bytes; a
FLUSH after them completes `Pack(B)`, of `ceil(N/8)` bytes, and leaves the accumulator empty. -/
def Obligations.AddsThenFlushPackTheBits : Prop :=
  ∀ (bits : List Bool) (s : State) (rest : List PortInput),
    s.fault = false → s.cnt = 0#3 →
    s.inputs = presented (bits.map fun b => (.add b, some .ok)) ++ commandInput (encode .flush) (some .ok) :: rest →
    (pack bits).length = bytesFor bits.length ∧
    (∃ t, runSteps bits.length s = .next t ∧ t.fault = false ∧ t.cnt.toNat = bits.length % 8 ∧
      t.out.length = s.out.length + bits.length / 8) ∧
    (∃ u, runSteps (bits.length + 1) s = .next u ∧ u.fault = false ∧ u.cnt = 0#3 ∧
      (s.acc = 0x00#8 → u.acc = 0x00#8) ∧ u.out = s.out ++ pack bits ∧ u.inputs = rest)

/-- Rules R57, R100, R109: read most significant bit first, `Pack(B)` is the bits `B` themselves followed by zero padding
bits up to the byte boundary, fewer than eight. -/
def Obligations.PackedBitsArePaddedWithZeros : Prop :=
  ∀ bits : List Bool,
    bitsOf (pack bits) = bits ++ List.replicate (8 * bytesFor bits.length - bits.length) false ∧
    8 * bytesFor bits.length - bits.length < 8

/-- Rule R127: in row-aligned mode the grid's commands write each row packed by itself, `H · ceil(W/8)` bytes, and end
cleanly. -/
def Obligations.RowAlignedGridPacksEachRow : Prop :=
  ∀ (g : Grid) (w h : Nat) (s : State), s.fault = false → s.cnt = 0#3 → s.rowal = true →
    s.inputs = presented ((drive g w h).map fun i => (i, some .ok)) →
    ∃ t, runSteps (drive g w h).length s = .next t ∧ CleanEnd t ∧
      t.out = s.out ++ packedRows g s.thresh w h ∧ (packedRows g s.thresh w h).length = h * bytesFor w

/-- Rule R128: in continuous mode the grid's commands write all its bits packed together, `ceil(W·H/8)` bytes, and end
cleanly. -/
def Obligations.ContinuousGridPacksAllBits : Prop :=
  ∀ (g : Grid) (w h : Nat) (s : State), s.fault = false → s.cnt = 0#3 → s.rowal = false →
    s.inputs = presented ((drive g w h).map fun i => (i, some .ok)) →
    ∃ t, runSteps (drive g w h).length s = .next t ∧ CleanEnd t ∧
      t.out = s.out ++ pack (gridBits g s.thresh w h) ∧ (pack (gridBits g s.thresh w h)).length = bytesFor (w * h)

/-- Rule R129: for a width that is a multiple of 8 the two modes give the same bytes; and for every command sequence, with
any answers of the sink, they give the same OUT when `CNT = 0` at every EOR. -/
def Obligations.ModesAgreeWhenRowsFillBytes : Prop :=
  (∀ (g : Grid) (thresh : Byte) (w h : Nat), w % 8 = 0 →
    packedRows g thresh w h = pack (gridBits g thresh w h)) ∧
  (∀ (cmds : List (Instr × Option SinkResp)) (s t t' : State), s.fault = false →
    (∀ before r after u, cmds = before ++ (.eor, r) :: after →
      runSteps before.length { s with rowal := true, inputs := presented cmds } = .next u →
      u.fault = false → u.cnt = 0#3) →
    runSteps cmds.length { s with rowal := true, inputs := presented cmds } = .next t →
    runSteps cmds.length { s with rowal := false, inputs := presented cmds } = .next t' →
    t.out = t'.out)

/-- Rule R130: the row-aligned size is never smaller; the difference is 0 when `W mod 8 = 0` and `floor(H·(8-r)/8)`
otherwise; it is strictly longer exactly when `r > 0` and `H·(8-r) ≥ 8`. The sizes are those of the streams of rules R127
and R128. -/
def Obligations.RowAlignedSizeExceedsContinuous : Prop :=
  ∀ (g : Grid) (thresh : Byte) (w h : Nat),
    (packedGrid true g thresh w h).length =
      (packedGrid false g thresh w h).length + (if w % 8 = 0 then 0 else h * (8 - w % 8) / 8) ∧
    ((packedGrid false g thresh w h).length < (packedGrid true g thresh w h).length ↔
      0 < w % 8 ∧ 8 ≤ h * (8 - w % 8))

/-- Rule R131: a zero-area grid writes no byte, in either mode and whatever the sink would answer, and ends cleanly; both
size formulas give 0. -/
def Obligations.ZeroAreaGridWritesNothing : Prop :=
  ∀ (g : Grid) (w h : Nat) (s : State) (cmds : List (Instr × Option SinkResp)), w = 0 ∨ h = 0 →
    s.fault = false → s.cnt = 0#3 → cmds.map Prod.fst = drive g w h → s.inputs = presented cmds →
    h * bytesFor w = 0 ∧ bytesFor (w * h) = 0 ∧ ∃ t, runSteps cmds.length s = .next t ∧ CleanEnd t ∧ t.out = s.out

/-- Rule R132: the two end-to-end sizes, 42 and 113 bytes, for every grid of those dimensions and every threshold. -/
def Obligations.EndToEndSizes : Prop :=
  ∀ (g : Grid) (thresh : Byte),
    (packedGrid true g thresh 24 14).length = 42 ∧ (packedGrid false g thresh 30 30).length = 113

/-- Rules R123, R125: the grid's commands are `W·H + H + 1`; the last of them, the final FLUSH, writes nothing in
row-aligned mode, and in continuous mode writes one byte when `W·H mod 8` is not 0 and nothing otherwise. -/
def Obligations.FinalFlushWritesOnlyTheTail : Prop :=
  ∀ (g : Grid) (w h : Nat) (s : State), s.fault = false → s.cnt = 0#3 →
    s.inputs = presented ((drive g w h).map fun i => (i, some .ok)) →
    (drive g w h).length = w * h + h + 1 ∧
    ∃ t u, runSteps (w * h + h) s = .next t ∧ step t = .next u ∧ t.fault = false ∧ u.fault = false ∧ u.cnt = 0#3 ∧
      (s.rowal = true → t.cnt = 0#3 ∧ u.out = t.out) ∧
      (s.rowal = false → t.cnt.toNat = w * h % 8 ∧ (w * h % 8 = 0 → u.out = t.out) ∧
        (w * h % 8 ≠ 0 → ∃ v, u.out = t.out ++ [v]))

/-- Rule R57: after the grid's commands the bit of pixel (`r`, `c`) stands at bit `7 - (n mod 8)` of byte `n div 8`, with
`n = r·W + c`, in continuous mode, and at bit `7 - (c mod 8)` of byte `r·ceil(W/8) + c div 8` in row-aligned mode. -/
def Obligations.PixelStandsAtItsPosition : Prop :=
  ∀ (g : Grid) (w h r c : Nat) (s : State), r < h → c < w → s.fault = false → s.cnt = 0#3 → s.out = [] →
    s.inputs = presented ((drive g w h).map fun i => (i, some .ok)) →
    ∃ t v, runSteps (drive g w h).length s = .next t ∧
      (s.rowal = false → readByte t ((r * w + c) / 8) = some v ∧
        v.getLsbD (7 - (r * w + c) % 8) = thr (g r c) s.thresh) ∧
      (s.rowal = true → readByte t (r * bytesFor w + c / 8) = some v ∧
        v.getLsbD (7 - c % 8) = thr (g r c) s.thresh)

/-- For every sequence of the sink's answers (rules R7, R147, R149; spec/93_implementation_defined.md U11): the grid's
commands end cleanly with the whole packed grid in OUT, or with `FAULT = 1`, cause 1, and OUT a proper leading part of
it. No partial success looks like a success (rule R152). -/
def Obligations.FailedRunKeepsALeadingPart : Prop :=
  ∀ (g : Grid) (w h : Nat) (s : State) (cmds : List (Instr × Option SinkResp)),
    s.fault = false → s.cnt = 0#3 → cmds.map Prod.fst = drive g w h → (∀ c ∈ cmds, c.2 ≠ none) →
    s.inputs = presented cmds →
    ∃ t, runSteps cmds.length s = .next t ∧
      ((CleanEnd t ∧ t.out = s.out ++ packedGrid s.rowal g s.thresh w h) ∨
       (t.fault = true ∧ t.fcause = .sinkWriteFailure ∧
        ∃ k < (packedGrid s.rowal g s.thresh w h).length,
          t.out = s.out ++ (packedGrid s.rowal g s.thresh w h).take k))

/-- Rule R165: after a clean end the CORE is in the same state as after a reset with its configuration, but for OUT; a
further command list, with any answers of the sink, does what it would do after that reset, and its bytes append after the
earlier ones. -/
def Obligations.RunningOnAppendsAfterCleanEnd : Prop :=
  ∀ s : State, CoreInv s → CleanEnd s →
    s.acc = 0x00#8 ∧ s.cnt = 0#3 ∧ s.fault = false ∧ s.fcause = .none ∧
    ∀ (cmds : List (Instr × Option SinkResp)) (t : State),
      runSteps cmds.length { s with inputs := presented cmds } = .next t →
      ∃ u, runSteps cmds.length { State.resetWith s.thresh s.rowal with inputs := presented cmds } = .next u ∧
        t.out = s.out ++ u.out ∧ t.fault = u.fault ∧ t.fcause = u.fcause ∧ t.thresh = s.thresh ∧ t.rowal = s.rowal ∧
        (t.fault = false → t.acc = u.acc ∧ t.cnt = u.cnt)
end

