-- ==== Sys2Proof/Laws/Bits.lean ====
section
/-! SUPPORT. What `setBit`, `assemble` and `mask` do to single bits. -/

namespace Sys2Proof.Machine

theorem getLsbD_setBit (v : Byte) (i j : Nat) (b : Bool) (hi : i < 8) :
    (setBit v i b).getLsbD j = if j = i then b else v.getLsbD j := by
  unfold setBit
  by_cases hj : j < 8
  · cases b <;> by_cases h : j = i <;> simp [hj, h] <;> omega
  · have hne : j ≠ i := by omega
    have hv : v.getLsbD j = false := BitVec.getLsbD_of_ge _ _ (by omega)
    cases b <;> simp [hne, hj, hv]

theorem getLsbD_assemble (a : Byte) (k j : Nat) (hk : k ≤ 8) :
    (assemble a k).getLsbD j = (decide (8 - k ≤ j) && a.getLsbD j) := by
  induction k with
  | zero =>
    by_cases hj : j < 8
    · simp [assemble]; omega
    · simp [assemble, BitVec.getLsbD_of_ge _ _ (by omega : 8 ≤ j)]
  | succ k ih =>
    rw [assemble, getLsbD_setBit _ _ _ _ (by unfold stagePos; omega), ih (by omega)]
    unfold stagePos
    by_cases h : j = 7 - k
    · subst h; simp
    · rw [if_neg h]
      congr 1
      simp only [decide_eq_decide]; omega

end Sys2Proof.Machine
end

