-- ==== Sys2Proof/Laws/Memory.lean ====
section
/-! SUPPORT. The canonical form of a memory and the basic laws of reading and writing; the sink's address space is canonical in
every state, and an accepted byte is a write at the append address. -/

namespace Sys2Proof.Machine

theorem Memory.read_cons (c : Host.Cell) (m : Memory) (a : Nat) :
    Memory.read (c :: m) a = if a = c.1 then some c.2 else Memory.read m a := by
  obtain ⟨k, v⟩ := c
  unfold Memory.read
  rw [List.lookup_cons]
  by_cases h : a = k
  · simp [h]
  · simp only [beq_false_of_ne h, h, if_false]

theorem Memory.read_write_same (m : Memory) (a : Nat) (v : Byte) : (m.write a v).read a = some v := by
  induction m with
  | nil => simp [Memory.write, Memory.read_cons]
  | cons c rest ih =>
    unfold Memory.write
    split
    · simp [Memory.read_cons]
    · split
      · simp [Memory.read_cons]
      · rename_i _ h2
        rw [Memory.read_cons, if_neg h2, ih]

theorem Memory.read_write_other (m : Memory) (a b : Nat) (v : Byte) (h : b ≠ a) :
    (m.write a v).read b = m.read b := by
  induction m with
  | nil => simp [Memory.write, Memory.read_cons, h]
  | cons c rest ih =>
    unfold Memory.write
    split
    · rw [Memory.read_cons, if_neg h]
    · split
      · rename_i _ h2
        simp only [Memory.read_cons]
        rw [if_neg h, if_neg (by omega)]
      · simp only [Memory.read_cons, ih]

theorem Memory.mem_write (m : Memory) (a k : Nat) (v : Byte) (h : k ∈ (m.write a v).map Prod.fst) :
    k = a ∨ k ∈ m.map Prod.fst := by
  induction m with
  | nil => simpa [Memory.write] using h
  | cons c rest ih =>
    unfold Memory.write at h
    split at h
    · simpa using h
    · split at h
      · rename_i _ h2
        simp at h ⊢; tauto
      · simp only [List.map_cons, List.mem_cons] at h ⊢
        rcases h with h | h
        · exact .inr (.inl h)
        · rcases ih h with h | h <;> tauto

theorem Memory.write_wf (m : Memory) (a : Nat) (v : Byte) (h : m.wf) : (m.write a v).wf := by
  induction m with
  | nil => simp [Memory.write, Memory.wf]
  | cons c rest ih =>
    unfold Memory.wf at h
    simp only [List.map_cons, List.pairwise_cons] at h
    unfold Memory.write
    split
    · rename_i h1
      simp only [Memory.wf, List.map_cons, List.pairwise_cons, List.mem_cons]
      refine ⟨?_, h.1, h.2⟩
      rintro k (rfl | hk)
      · exact h1
      · exact h1.trans (h.1 k hk)
    · split
      · rename_i _ h2
        simp only [Memory.wf, List.map_cons, List.pairwise_cons]
        exact ⟨h2 ▸ h.1, h.2⟩
      · rename_i h1 h2
        simp only [Memory.wf, List.map_cons, List.pairwise_cons]
        refine ⟨fun k hk => ?_, ih h.2⟩
        rcases Memory.mem_write rest a k v hk with rfl | hk
        · omega
        · exact h.1 k hk

theorem Memory.le_of_mem_ofBytes (base k : Nat) (bs : List Byte) (h : k ∈ (Memory.ofBytes base bs).map Prod.fst) :
    base ≤ k := by
  induction bs generalizing base with
  | nil => simp [Memory.ofBytes] at h
  | cons v rest ih =>
    simp only [Memory.ofBytes, List.map_cons, List.mem_cons] at h
    rcases h with rfl | h
    · exact Nat.le_refl _
    · have := ih (base + 1) h; omega

theorem Memory.ofBytes_wf (base : Nat) (bs : List Byte) : (Memory.ofBytes base bs).wf := by
  induction bs generalizing base with
  | nil => simp [Memory.ofBytes, Memory.wf]
  | cons v rest ih =>
    simp only [Memory.ofBytes, Memory.wf, List.map_cons, List.pairwise_cons]
    exact ⟨fun k hk => Memory.le_of_mem_ofBytes _ _ _ hk, ih (base + 1)⟩

theorem Memory.read_ofBytes (base a : Nat) (bs : List Byte) :
    (Memory.ofBytes base bs).read a = if base ≤ a then bs[a - base]? else none := by
  induction bs generalizing base with
  | nil => simp [Memory.ofBytes, Memory.read]
  | cons v rest ih =>
    rw [Memory.ofBytes, Memory.read_cons, ih]
    by_cases h : a = base
    · subst h; simp
    · by_cases h' : base ≤ a
      · have e : a - base = (a - (base + 1)) + 1 := by omega
        simp only [h, if_false, h', if_true, if_pos (by omega : base + 1 ≤ a), e, List.getElem?_cons_succ]
      · simp only [h, if_false, h', if_neg (by omega : ¬ base + 1 ≤ a)]

theorem Memory.ofBytes_append (base : Nat) (bs : List Byte) (v : Byte) :
    Memory.ofBytes base (bs ++ [v]) = (Memory.ofBytes base bs).write (base + bs.length) v := by
  induction bs generalizing base with
  | nil => simp [Memory.ofBytes, Memory.write]
  | cons w rest ih =>
    simp only [List.cons_append, Memory.ofBytes, List.length_cons, Memory.write]
    rw [if_neg (by omega), if_neg (by omega), ih, show base + 1 + rest.length = base + (rest.length + 1) by omega]

/-- The address space of every state is in canonical form. -/
theorem memory_wf (s : State) : (memory s).wf := Memory.ofBytes_wf 0 s.out

/-- Reading the address space by address is reading OUT by index. -/
theorem memory_read (s : State) (a : Nat) : (memory s).read a = readByte s a := by
  simp [memory, readByte, Memory.read_ofBytes]

/-- Nothing is listed after reset. -/
theorem reset_memory : memory State.reset = [] := rfl

/-- An accepted byte is written at the append address. -/
theorem memory_of_append (s t : State) (v : Byte) (h : t.out = s.out ++ [v]) :
    memory t = (memory s).write (appendAddr s) v := by
  unfold memory appendAddr
  rw [h, Memory.ofBytes_append, Nat.zero_add]

end Sys2Proof.Machine
end

