-- ==== Sys2Proof/Laws/State.lean ====
section
/-! SUPPORT. One lemma per field of State and per named update, true by definition. -/

namespace Sys2Proof.Machine

/-! ## complete -/

@[simp] theorem complete_acc (s : State) : (complete s).acc = s.acc := rfl
@[simp] theorem complete_cnt (s : State) : (complete s).cnt = s.cnt := rfl
@[simp] theorem complete_thresh (s : State) : (complete s).thresh = s.thresh := rfl
@[simp] theorem complete_rowal (s : State) : (complete s).rowal = s.rowal := rfl
@[simp] theorem complete_fault (s : State) : (complete s).fault = s.fault := rfl
@[simp] theorem complete_fcause (s : State) : (complete s).fcause = s.fcause := rfl
@[simp] theorem complete_out (s : State) : (complete s).out = s.out := rfl
@[simp] theorem complete_cmdStatus (s : State) : (complete s).cmdStatus = some .done := rfl
@[simp] theorem complete_snkOut (s : State) : (complete s).snkOut = s.snkOut := rfl
@[simp] theorem complete_inputs (s : State) : (complete s).inputs = s.inputs := rfl
@[simp] theorem complete_snkResp (s : State) : (complete s).snkResp = s.snkResp := rfl
@[simp] theorem complete_sinkBefore (s : State) : (complete s).sinkBefore = s.sinkBefore := rfl
@[simp] theorem complete_sinkTail (s : State) : (complete s).sinkTail = s.sinkTail := rfl
@[simp] theorem complete_draws (s : State) : (complete s).draws = s.draws := rfl

/-! ## blocked -/

@[simp] theorem blocked_acc (s : State) : (blocked s).acc = s.acc := rfl
@[simp] theorem blocked_cnt (s : State) : (blocked s).cnt = s.cnt := rfl
@[simp] theorem blocked_thresh (s : State) : (blocked s).thresh = s.thresh := rfl
@[simp] theorem blocked_rowal (s : State) : (blocked s).rowal = s.rowal := rfl
@[simp] theorem blocked_fault (s : State) : (blocked s).fault = s.fault := rfl
@[simp] theorem blocked_fcause (s : State) : (blocked s).fcause = s.fcause := rfl
@[simp] theorem blocked_out (s : State) : (blocked s).out = s.out := rfl
@[simp] theorem blocked_cmdStatus (s : State) : (blocked s).cmdStatus = some .faulted := rfl
@[simp] theorem blocked_snkOut (s : State) : (blocked s).snkOut = none := rfl
@[simp] theorem blocked_inputs (s : State) : (blocked s).inputs = s.inputs := rfl
@[simp] theorem blocked_snkResp (s : State) : (blocked s).snkResp = s.snkResp := rfl
@[simp] theorem blocked_sinkBefore (s : State) : (blocked s).sinkBefore = s.sinkBefore := rfl
@[simp] theorem blocked_sinkTail (s : State) : (blocked s).sinkTail = s.sinkTail := rfl
@[simp] theorem blocked_draws (s : State) : (blocked s).draws = s.draws := rfl

/-! ## clearAccumulator -/

@[simp] theorem clearAccumulator_acc (s : State) : (clearAccumulator s).acc = 0x00#8 := rfl
@[simp] theorem clearAccumulator_cnt (s : State) : (clearAccumulator s).cnt = 0#3 := rfl
@[simp] theorem clearAccumulator_thresh (s : State) : (clearAccumulator s).thresh = s.thresh := rfl
@[simp] theorem clearAccumulator_rowal (s : State) : (clearAccumulator s).rowal = s.rowal := rfl
@[simp] theorem clearAccumulator_fault (s : State) : (clearAccumulator s).fault = s.fault := rfl
@[simp] theorem clearAccumulator_fcause (s : State) : (clearAccumulator s).fcause = s.fcause := rfl
@[simp] theorem clearAccumulator_out (s : State) : (clearAccumulator s).out = s.out := rfl
@[simp] theorem clearAccumulator_cmdStatus (s : State) : (clearAccumulator s).cmdStatus = s.cmdStatus := rfl
@[simp] theorem clearAccumulator_snkOut (s : State) : (clearAccumulator s).snkOut = s.snkOut := rfl
@[simp] theorem clearAccumulator_inputs (s : State) : (clearAccumulator s).inputs = s.inputs := rfl
@[simp] theorem clearAccumulator_snkResp (s : State) : (clearAccumulator s).snkResp = s.snkResp := rfl
@[simp] theorem clearAccumulator_sinkBefore (s : State) : (clearAccumulator s).sinkBefore = s.sinkBefore := rfl
@[simp] theorem clearAccumulator_sinkTail (s : State) : (clearAccumulator s).sinkTail = s.sinkTail := rfl
@[simp] theorem clearAccumulator_draws (s : State) : (clearAccumulator s).draws = s.draws := rfl

/-! ## raiseFault -/

@[simp] theorem raiseFault_acc (c : FCause) (s : State) : (raiseFault c s).acc = Config.faultAcc s.draws := rfl
@[simp] theorem raiseFault_cnt (c : FCause) (s : State) : (raiseFault c s).cnt = Config.faultCnt s.draws := rfl
@[simp] theorem raiseFault_thresh (c : FCause) (s : State) : (raiseFault c s).thresh = s.thresh := rfl
@[simp] theorem raiseFault_rowal (c : FCause) (s : State) : (raiseFault c s).rowal = s.rowal := rfl
@[simp] theorem raiseFault_fault (c : FCause) (s : State) : (raiseFault c s).fault = true := rfl
@[simp] theorem raiseFault_fcause (c : FCause) (s : State) : (raiseFault c s).fcause = c := rfl
@[simp] theorem raiseFault_out (c : FCause) (s : State) : (raiseFault c s).out = s.out := rfl
@[simp] theorem raiseFault_cmdStatus (c : FCause) (s : State) : (raiseFault c s).cmdStatus = some .faulted := rfl
@[simp] theorem raiseFault_snkOut (c : FCause) (s : State) : (raiseFault c s).snkOut = s.snkOut := rfl
@[simp] theorem raiseFault_inputs (c : FCause) (s : State) : (raiseFault c s).inputs = s.inputs := rfl
@[simp] theorem raiseFault_snkResp (c : FCause) (s : State) : (raiseFault c s).snkResp = s.snkResp := rfl
@[simp] theorem raiseFault_sinkBefore (c : FCause) (s : State) : (raiseFault c s).sinkBefore = s.sinkBefore := rfl
@[simp] theorem raiseFault_sinkTail (c : FCause) (s : State) : (raiseFault c s).sinkTail = s.sinkTail := rfl
@[simp] theorem raiseFault_draws (c : FCause) (s : State) : (raiseFault c s).draws = s.draws + 1 := rfl

/-! ## takeInput -/

@[simp] theorem takeInput_acc (p : PortInput) (rest : List PortInput) (s : State) : (takeInput p rest s).acc = s.acc := rfl
@[simp] theorem takeInput_cnt (p : PortInput) (rest : List PortInput) (s : State) : (takeInput p rest s).cnt = s.cnt := rfl
@[simp] theorem takeInput_thresh (p : PortInput) (rest : List PortInput) (s : State) : (takeInput p rest s).thresh = s.thresh := rfl
@[simp] theorem takeInput_rowal (p : PortInput) (rest : List PortInput) (s : State) : (takeInput p rest s).rowal = s.rowal := rfl
@[simp] theorem takeInput_fault (p : PortInput) (rest : List PortInput) (s : State) : (takeInput p rest s).fault = s.fault := rfl
@[simp] theorem takeInput_fcause (p : PortInput) (rest : List PortInput) (s : State) : (takeInput p rest s).fcause = s.fcause := rfl
@[simp] theorem takeInput_out (p : PortInput) (rest : List PortInput) (s : State) : (takeInput p rest s).out = s.out := rfl
@[simp] theorem takeInput_cmdStatus (p : PortInput) (rest : List PortInput) (s : State) : (takeInput p rest s).cmdStatus = s.cmdStatus := rfl
@[simp] theorem takeInput_snkOut (p : PortInput) (rest : List PortInput) (s : State) : (takeInput p rest s).snkOut = s.snkOut := rfl
@[simp] theorem takeInput_inputs (p : PortInput) (rest : List PortInput) (s : State) : (takeInput p rest s).inputs = rest := rfl
@[simp] theorem takeInput_snkResp (p : PortInput) (rest : List PortInput) (s : State) : (takeInput p rest s).snkResp = p.snkResp := rfl
@[simp] theorem takeInput_sinkBefore (p : PortInput) (rest : List PortInput) (s : State) : (takeInput p rest s).sinkBefore = s.sinkBefore := rfl
@[simp] theorem takeInput_sinkTail (p : PortInput) (rest : List PortInput) (s : State) : (takeInput p rest s).sinkTail = s.sinkTail := rfl
@[simp] theorem takeInput_draws (p : PortInput) (rest : List PortInput) (s : State) : (takeInput p rest s).draws = s.draws := rfl

/-! ## assertReset -/

@[simp] theorem assertReset_acc (p : PortInput) (s : State) : (assertReset p s).acc = 0x00#8 := rfl
@[simp] theorem assertReset_cnt (p : PortInput) (s : State) : (assertReset p s).cnt = 0#3 := rfl
@[simp] theorem assertReset_thresh (p : PortInput) (s : State) : (assertReset p s).thresh = p.cfgThreshold.getD Config.defaultThreshold := rfl
@[simp] theorem assertReset_rowal (p : PortInput) (s : State) : (assertReset p s).rowal = p.cfgRowAligned.getD Config.defaultRowAligned := rfl
@[simp] theorem assertReset_fault (p : PortInput) (s : State) : (assertReset p s).fault = false := rfl
@[simp] theorem assertReset_fcause (p : PortInput) (s : State) : (assertReset p s).fcause = .none := rfl
@[simp] theorem assertReset_out (p : PortInput) (s : State) : (assertReset p s).out = [] := rfl
@[simp] theorem assertReset_cmdStatus (p : PortInput) (s : State) : (assertReset p s).cmdStatus = none := rfl
@[simp] theorem assertReset_snkOut (p : PortInput) (s : State) : (assertReset p s).snkOut = none := rfl
@[simp] theorem assertReset_inputs (p : PortInput) (s : State) : (assertReset p s).inputs = s.inputs := rfl
@[simp] theorem assertReset_snkResp (p : PortInput) (s : State) : (assertReset p s).snkResp = s.snkResp := rfl
@[simp] theorem assertReset_sinkBefore (p : PortInput) (s : State) : (assertReset p s).sinkBefore = sinkContents s := rfl
@[simp] theorem assertReset_sinkTail (p : PortInput) (s : State) : (assertReset p s).sinkTail = [] := rfl
@[simp] theorem assertReset_draws (p : PortInput) (s : State) : (assertReset p s).draws = s.draws := rfl

end Sys2Proof.Machine
end

