-- ==== Sys2Proof/Laws/Ops.lean ====
section
/-! SUPPORT. One spec lemma per shared operation: what it answers in each of its cases. -/

namespace Sys2Proof.Machine

/-- What an emission of `v` leaves when the sink accepts the byte (rule R102). -/
def emitted (v : Byte) (s : State) : State :=
  complete (clearAccumulator { s with out := s.out ++ [v], snkOut := some v })

/-- What an emission of `v` leaves when the sink fails the write (rules R102, R146, R147). -/
def emitFailed (v : Byte) (s : State) : State :=
  raiseFault .sinkWriteFailure { s with sinkTail := Config.sinkTail s.draws, snkOut := some v }

theorem emit_ok (v : Byte) (s : State) (h : s.snkResp = some .ok) : emit v s = .next (emitted v s) := by
  simp only [emit, sinkWrite, emitted, h]

theorem emit_fail (v : Byte) (s : State) (h : s.snkResp = some .fail) : emit v s = .next (emitFailed v s) := by
  simp only [emit, sinkWrite, emitFailed, h]

theorem emit_silent (v : Byte) (s : State) (h : s.snkResp = none) : emit v s = .fault .sinkNeverAnswers := by
  simp only [emit, sinkWrite, h]

/-- Everything an emission can answer. -/
theorem emit_cases (v : Byte) (s : State) :
    (s.snkResp = some .ok ∧ emit v s = .next (emitted v s)) ∨
    (s.snkResp = some .fail ∧ emit v s = .next (emitFailed v s)) ∨
    (s.snkResp = none ∧ emit v s = .fault .sinkNeverAnswers) := by
  rcases h : s.snkResp with _ | (_ | _)
  · exact .inr (.inr ⟨rfl, emit_silent v s h⟩)
  · exact .inl ⟨rfl, emit_ok v s h⟩
  · exact .inr (.inl ⟨rfl, emit_fail v s h⟩)

theorem runCommand_faulted (body : State → StepOutcome) (s : State) (h : s.fault = true) :
    runCommand body s = .next (blocked s) := by
  simp [runCommand, h]

theorem runCommand_running (body : State → StepOutcome) (s : State) (h : s.fault = false) :
    runCommand body s = body { s with snkOut := none } := by
  simp [runCommand, h]

/-- The accumulator with `b` in the next free stage (rule R103). -/
def withBit (b : Bool) (s : State) : Byte := setBit s.acc (stagePos s.cnt.toNat) b

theorem addBit_below (b : Bool) (s : State) (h : s.cnt ≠ 7#3) :
    addBit b s = .next (complete { s with acc := withBit b s, cnt := s.cnt + 1 }) := by
  simp [addBit, accAtLastStage, withBit, h]

theorem addBit_last (b : Bool) (s : State) (h : s.cnt = 7#3) :
    addBit b s = emit (assemble (withBit b s) 8) { s with acc := withBit b s } := by
  simp [addBit, accAtLastStage, withBit, h, Config.accCap]

theorem flushBits_empty (s : State) (h : s.cnt = 0#3) : flushBits s = .next (complete s) := by
  simp [flushBits, accEmpty, h]

theorem flushBits_pending (s : State) (h : s.cnt ≠ 0#3) :
    flushBits s = emit (assemble s.acc s.cnt.toNat) s := by
  simp [flushBits, accEmpty, h]

theorem endRow_aligned (s : State) (h : s.rowal = true) : endRow s = flushBits s := by
  simp [endRow, h]

theorem endRow_continuous (s : State) (h : s.rowal = false) : endRow s = .next (complete s) := by
  simp [endRow, h]

end Sys2Proof.Machine
end

