-- ==== Sys2Proof/Laws/Exec.lean ====
section
/-! SUPPORT. Everything a command and a step can do, said once. -/

namespace Sys2Proof.Machine

/-- The byte a command presents to the sink when it presents one (rules R103, R106, R121). -/
def byteOf (i : Instr) (s : State) : Byte :=
  match i with
  | .add b => assemble (withBit b s) 8
  | .pix x => assemble (withBit (thr x s.thresh) s) 8
  | .flush => assemble s.acc s.cnt.toNat
  | .eor => assemble s.acc s.cnt.toNat

/-- What a command that presents no byte leaves (rules R103, R106, R121). -/
def unwritten (i : Instr) (s : State) : State :=
  match i with
  | .add b => complete { s with snkOut := none, acc := withBit b s, cnt := s.cnt + 1 }
  | .pix x => complete { s with snkOut := none, acc := withBit (thr x s.thresh) s, cnt := s.cnt + 1 }
  | .flush => complete { s with snkOut := none }
  | .eor => complete { s with snkOut := none }

theorem exec_faulted (i : Instr) (s : State) (h : s.fault = true) : exec i s = .next (blocked s) := by
  cases i <;> exact runCommand_faulted _ s h

theorem exec_unwritten (i : Instr) (s : State) (h : s.fault = false) (hw : writesByte i s = false) :
    exec i s = .next (unwritten i s) := by
  cases i with
  | add b =>
    have hc : s.cnt ≠ 7#3 := by simpa [writesByte] using hw
    exact (runCommand_running _ s h).trans (addBit_below b { s with snkOut := none } hc)
  | pix x =>
    have hc : s.cnt ≠ 7#3 := by simpa [writesByte] using hw
    exact (runCommand_running _ s h).trans (addBit_below (thr x s.thresh) { s with snkOut := none } hc)
  | flush =>
    have hc : s.cnt = 0#3 := by simpa [writesByte] using hw
    exact (runCommand_running _ s h).trans (flushBits_empty { s with snkOut := none } hc)
  | eor =>
    refine (runCommand_running _ s h).trans ?_
    rcases Bool.eq_false_or_eq_true s.rowal with hr | hr
    · have hc : s.cnt = 0#3 := by simpa [writesByte, hr] using hw
      exact (endRow_aligned { s with snkOut := none } hr).trans (flushBits_empty { s with snkOut := none } hc)
    · exact endRow_continuous { s with snkOut := none } hr

/-- The state in which a command that presents a byte emits it: the eighth bit is already stored. -/
def emitting (i : Instr) (s : State) : State :=
  match i with
  | .add b => { s with snkOut := none, acc := withBit b s }
  | .pix x => { s with snkOut := none, acc := withBit (thr x s.thresh) s }
  | .flush => { s with snkOut := none }
  | .eor => { s with snkOut := none }

theorem exec_writes (i : Instr) (s : State) (h : s.fault = false) (hw : writesByte i s = true) :
    exec i s = emit (byteOf i s) (emitting i s) := by
  cases i with
  | add b =>
    have hc : s.cnt = 7#3 := by simpa [writesByte] using hw
    exact (runCommand_running _ s h).trans (addBit_last b { s with snkOut := none } hc)
  | pix x =>
    have hc : s.cnt = 7#3 := by simpa [writesByte] using hw
    exact (runCommand_running _ s h).trans (addBit_last (thr x s.thresh) { s with snkOut := none } hc)
  | flush =>
    have hc : s.cnt ≠ 0#3 := by simpa [writesByte] using hw
    exact (runCommand_running _ s h).trans (flushBits_pending { s with snkOut := none } hc)
  | eor =>
    have hc : s.rowal = true ∧ s.cnt ≠ 0#3 := by simpa [writesByte] using hw
    exact (runCommand_running _ s h).trans <|
      (endRow_aligned { s with snkOut := none } hc.1).trans (flushBits_pending { s with snkOut := none } hc.2)

theorem exec_writes_ok (i : Instr) (s : State) (h : s.fault = false) (hw : writesByte i s = true)
    (hr : s.snkResp = some .ok) : exec i s = .next (emitted (byteOf i s) s) := by
  rw [exec_writes i s h hw, emit_ok _ _ (by cases i <;> exact hr)]
  cases i <;> rfl

theorem exec_writes_fail (i : Instr) (s : State) (h : s.fault = false) (hw : writesByte i s = true)
    (hr : s.snkResp = some .fail) : exec i s = .next (emitFailed (byteOf i s) s) := by
  rw [exec_writes i s h hw, emit_fail _ _ (by cases i <;> exact hr)]
  cases i <;> rfl

theorem exec_writes_silent (i : Instr) (s : State) (h : s.fault = false) (hw : writesByte i s = true)
    (hr : s.snkResp = none) : exec i s = .fault .sinkNeverAnswers := by
  rw [exec_writes i s h hw, emit_silent _ _ (by cases i <;> exact hr)]

/-- Everything a command can do when it answers a next state. -/
theorem exec_next_cases (i : Instr) (s t : State) (h : exec i s = .next t) :
    (s.fault = true ∧ t = blocked s) ∨
    (s.fault = false ∧ writesByte i s = false ∧ t = unwritten i s) ∨
    (s.fault = false ∧ writesByte i s = true ∧ s.snkResp = some .ok ∧ t = emitted (byteOf i s) s) ∨
    (s.fault = false ∧ writesByte i s = true ∧ s.snkResp = some .fail ∧ t = emitFailed (byteOf i s) s) := by
  cases hf : s.fault with
  | true =>
    rw [exec_faulted i s hf] at h
    exact .inl ⟨rfl, by injection h with h; exact h.symm⟩
  | false =>
    cases hw : writesByte i s with
    | false =>
      rw [exec_unwritten i s hf hw] at h
      exact .inr (.inl ⟨rfl, rfl, by injection h with h; exact h.symm⟩)
    | true =>
      rcases hr : s.snkResp with _ | (_ | _)
      · rw [exec_writes_silent i s hf hw hr] at h; cases h
      · rw [exec_writes_ok i s hf hw hr] at h
        exact .inr (.inr (.inl ⟨rfl, rfl, rfl, by injection h with h; exact h.symm⟩))
      · rw [exec_writes_fail i s hf hw hr] at h
        exact .inr (.inr (.inr ⟨rfl, rfl, rfl, by injection h with h; exact h.symm⟩))

theorem rejectWord_faulted (c : FCause) (s : State) (h : s.fault = true) :
    rejectWord c s = .next (blocked s) := runCommand_faulted _ s h

theorem rejectWord_running (c : FCause) (s : State) (h : s.fault = false) :
    rejectWord c s = .next (raiseFault c { s with snkOut := none }) := runCommand_running _ s h

theorem presentWord_command (w : Word) (i : Instr) (s : State) (h : decode w = .command i) :
    presentWord w s = exec i s := by
  simp [presentWord, h]

theorem presentWord_illegal (w : Word) (s : State) (h : decode w = .illegalBitValue) :
    presentWord w s = rejectWord .illegalBitValue s := by
  simp [presentWord, h]

theorem presentWord_reserved (w : Word) (s : State) (h : decode w = .reserved) :
    presentWord w s = rejectWord .reservedCommand s := by
  simp [presentWord, h]

theorem presentWord_faulted (w : Word) (s : State) (h : s.fault = true) :
    presentWord w s = .next (blocked s) := by
  cases hd : decode w with
  | command i => rw [presentWord_command w i s hd, exec_faulted i s h]
  | illegalBitValue => rw [presentWord_illegal w s hd, rejectWord_faulted _ s h]
  | reserved => rw [presentWord_reserved w s hd, rejectWord_faulted _ s h]

theorem step_no_input (s : State) (h : s.inputs = []) : step s = .next s := by
  simp [step, nextStep, h]

theorem step_input (s : State) (p : PortInput) (rest : List PortInput) (h : s.inputs = p :: rest) :
    step s = applyInput p (takeInput p rest s) := by
  simp [step, nextStep, h]

theorem step_reset (s : State) (p : PortInput) (rest : List PortInput) (h : s.inputs = p :: rest)
    (hr : p.rst = true) : step s = .next (assertReset p (takeInput p rest s)) := by
  rw [step_input s p rest h, applyInput, if_pos hr]

theorem step_idle (s : State) (p : PortInput) (rest : List PortInput) (h : s.inputs = p :: rest)
    (hr : p.rst = false) (hv : p.cmdValid = false) : step s = .next (takeInput p rest s) := by
  simp [step_input s p rest h, applyInput, hr, hv]

theorem step_present (s : State) (p : PortInput) (rest : List PortInput) (h : PresentsCommand s p rest) :
    step s = presentWord p.cmd (takeInput p rest s) := by
  simp [step_input s p rest h.1, applyInput, h.2.1, h.2.2]

/-- Everything a step can do when it answers a next state. -/
theorem step_next_cases (s t : State) (h : step s = .next t) :
    (s.inputs = [] ∧ t = s) ∨
    ∃ p rest, s.inputs = p :: rest ∧
      ((p.rst = true ∧ t = assertReset p (takeInput p rest s)) ∨
       (p.rst = false ∧ p.cmdValid = false ∧ t = takeInput p rest s) ∨
       (p.rst = false ∧ p.cmdValid = true ∧ s.fault = true ∧ t = blocked (takeInput p rest s)) ∨
       (p.rst = false ∧ p.cmdValid = true ∧ s.fault = false ∧ decode p.cmd = .illegalBitValue ∧
         t = raiseFault .illegalBitValue { takeInput p rest s with snkOut := none }) ∨
       (p.rst = false ∧ p.cmdValid = true ∧ s.fault = false ∧ decode p.cmd = .reserved ∧
         t = raiseFault .reservedCommand { takeInput p rest s with snkOut := none }) ∨
       (p.rst = false ∧ p.cmdValid = true ∧ s.fault = false ∧
         ∃ i, decode p.cmd = .command i ∧ exec i (takeInput p rest s) = .next t)) := by
  rcases hi : s.inputs with _ | ⟨p, rest⟩
  · rw [step_no_input s hi] at h
    exact .inl ⟨rfl, by injection h with h; exact h.symm⟩
  · refine .inr ⟨p, rest, rfl, ?_⟩
    cases hr : p.rst with
    | true =>
      rw [step_reset s p rest hi hr] at h
      exact .inl ⟨rfl, by injection h with h; exact h.symm⟩
    | false =>
      cases hv : p.cmdValid with
      | false =>
        rw [step_idle s p rest hi hr hv] at h
        exact .inr (.inl ⟨rfl, rfl, by injection h with h; exact h.symm⟩)
      | true =>
        rw [step_present s p rest ⟨hi, hr, hv⟩] at h
        cases hf : s.fault with
        | true =>
          rw [presentWord_faulted _ _ (by simpa using hf)] at h
          exact .inr (.inr (.inl ⟨rfl, rfl, rfl, by injection h with h; exact h.symm⟩))
        | false =>
          cases hd : decode p.cmd with
          | command i =>
            rw [presentWord_command _ _ _ hd] at h
            exact .inr (.inr (.inr (.inr (.inr ⟨rfl, rfl, rfl, i, rfl, h⟩))))
          | illegalBitValue =>
            rw [presentWord_illegal _ _ hd, rejectWord_running _ _ (by simpa using hf)] at h
            exact .inr (.inr (.inr (.inl ⟨rfl, rfl, rfl, rfl, by injection h with h; exact h.symm⟩)))
          | reserved =>
            rw [presentWord_reserved _ _ hd, rejectWord_running _ _ (by simpa using hf)] at h
            exact .inr (.inr (.inr (.inr (.inl ⟨rfl, rfl, rfl, rfl, by injection h with h; exact h.symm⟩))))

end Sys2Proof.Machine
end

