-- ==== Sys2Proof/Laws/PerInstr.lean ====
section
/-! SUPPORT. For every command: its encoded word is selected by its own row of the opcode table and by no other row, so that
the encoder, the match and mask of rules R74 to R77 and the mnemonics agree. -/

namespace Sys2Proof.Laws.OwnRow

/-- The rows that select the encoded word are exactly the command's own. -/
def Statement (i : Instr) : Prop :=
  (opcodeTable.filter fun r => r.selects (encode i)).map OpcodeRow.mnemonic = [i.mnemonic]

theorem add (b : Bool) : Statement (.add b) := by
  cases b <;> rfl

theorem pix (s : Byte) : Statement (.pix s) := by
  have h : ∀ x : Byte,
      (opcodeTable.filter fun r => r.selects (encode (.pix x))).map OpcodeRow.mnemonic = ["PIX"] := by
    decide +kernel
  exact h s

theorem flush : Statement .flush := rfl

theorem eor : Statement .eor := rfl

end Sys2Proof.Laws.OwnRow
end

