-- ==== Sys2Proof/Laws/Run.lean ====
section
/-! SUPPORT. Runs of several steps: how they begin and how they are put together. -/

namespace Sys2Proof.Machine

/-- `runSteps` is the run of the host's interface. -/
theorem core_run_eq_runSteps (n : Nat) (s : State) : core.run n s = runSteps n s := by
  induction n generalizing s with
  | zero => rfl
  | succ n ih =>
    rcases h : step s with t | r | r <;> have h' := h <;> change core.step s = _ at h' <;>
      simp only [Host.Core.run, runSteps, h, h']
    · exact ih t
    · rfl
    · rfl

theorem run_zero (s : State) : runSteps 0 s = .next s := rfl

theorem run_succ_of_next (n : Nat) (s t : State) (h : step s = .next t) : runSteps (n + 1) s = runSteps n t := by
  simp only [runSteps, h]

theorem run_succ_of_fault (n : Nat) (s : State) (r : Fault) (h : step s = .fault r) :
    runSteps (n + 1) s = .fault r := by
  simp only [runSteps, h]

theorem run_succ_of_refused (n : Nat) (s : State) (r : Refusal) (h : step s = .refused r) :
    runSteps (n + 1) s = .refused r := by
  simp only [runSteps, h]

/-- A run that reaches `t` goes on from `t`. -/
theorem run_add_of_next (m n : Nat) (s t : State) (h : runSteps m s = .next t) :
    runSteps (m + n) s = runSteps n t := by
  induction m generalizing s with
  | zero =>
    rw [run_zero] at h
    injection h with h
    rw [Nat.zero_add, h]
  | succ m ih =>
    rw [Nat.succ_add]
    rcases hs : step s with u | r | r
    · rw [run_succ_of_next _ _ _ hs] at h ⊢
      exact ih u h
    · rw [run_succ_of_fault _ _ _ hs] at h; cases h
    · rw [run_succ_of_refused _ _ _ hs] at h; cases h

@[simp] theorem presented_nil : presented [] = [] := rfl

@[simp] theorem presented_cons (c : Instr × Option SinkResp) (rest : List (Instr × Option SinkResp)) :
    presented (c :: rest) = commandInput (encode c.1) c.2 :: presented rest := rfl

theorem presented_append (a b : List (Instr × Option SinkResp)) :
    presented (a ++ b) = presented a ++ presented b := by
  simp [presented]

/-- A word whose decoding is known, presented in the next step, runs as its command. -/
theorem step_commandInput (s : State) (i : Instr) (w : Word) (r : Option SinkResp) (rest : List PortInput)
    (h : s.inputs = commandInput w r :: rest) (hd : decode w = .command i) :
    step s = exec i { s with inputs := rest, snkResp := r } := by
  rw [step_present s _ rest ⟨h, rfl, rfl⟩]
  exact presentWord_command w i _ hd

end Sys2Proof.Machine
end

