-- ==== Sys2Proof/Tests/Slice0.lean ====
section
/-! SUPPORT. The model's own tests. Expected values are those of spec/95_test_vectors.md (the vector is named at each test) or
are worked out by hand from the cited rule. The witnesses show, for every statement with hypotheses, a concrete input that
meets them together. -/

namespace Sys2Proof.Tests

open Sys2Proof Sys2Proof.Machine

/-- A state with these pending bits and this output, all else as after reset. -/
def held (acc : Byte) (cnt : Count) (out : List Byte) : State :=
  { State.reset with acc := acc, cnt := cnt, out := out }

/-- What the vectors list of a completed command: ACC, CNT, OUT. -/
def after : StepOutcome → Option (Byte × Count × List Byte)
  | .next t => some (t.acc, t.cnt, t.out)
  | .fault _ => none
  | .refused _ => none

/-- What the vectors list of a faulted command: status, FAULT, FCAUSE, OUT (ACC and CNT are unspecified). -/
def faultView : StepOutcome → Option (Option CmdStatus × Bool × BitVec 2 × List Byte)
  | .next t => some (t.cmdStatus, t.fault, t.fcause.code, t.out)
  | .fault _ => none
  | .refused _ => none

/-! ## Well-formedness: every row selects its words and refuses the words beside them (V-DEC) -/

theorem test_wf_accepts : wordWf 0x001#11 = true ∧ wordWf 0x1C8#11 = true ∧ wordWf 0x200#11 = true ∧
    wordWf 0x300#11 = true := by decide

theorem test_wf_refuses_illegal_bit : wordWf 0x002#11 = false ∧ wordWf 0x0FF#11 = false := by decide

theorem test_wf_refuses_flush_operand : wordWf 0x201#11 = false := by decide

theorem test_wf_refuses_eor_operand : wordWf 0x301#11 = false := by decide

theorem test_wf_refuses_reserved_op : wordWf 0x400#11 = false ∧ wordWf 0x7FF#11 = false := by decide

/-- No two rows of the opcode table overlap: where two masks agree the patterns differ (rules R74 to R77). -/
theorem test_rows_disjoint :
    opcodeTable.Pairwise fun a b => a.pattern &&& (a.mask &&& b.mask) ≠ b.pattern &&& (a.mask &&& b.mask) := by
  decide

/-! ## Decoding: words written out from rules R74 to R79 -/

theorem test_decode_add : decode 0b00000000001#11 = .command (.add true) := by decide

theorem test_decode_pix : decode 0b00111001000#11 = .command (.pix 200#8) := by decide

theorem test_decode_flush : decode 0b01000000000#11 = .command .flush := by decide

theorem test_decode_eor : decode 0b01100000000#11 = .command .eor := by decide

theorem test_decode_rejects : decode 0b00010000000#11 = .illegalBitValue ∧ decode 0b01000000001#11 = .reserved ∧
    decode 0b10100000000#11 = .reserved := by decide

theorem test_table_word : decodeTableWord 16 0x165 = some (.pix 101#8) ∧ decodeTableWord 16 0x002 = none ∧
    decodeTableWord 16 0x965 = none := by decide

/-! ## Commands -/

/-- V-ADD, `n = 3`. -/
theorem test_add_below : after (exec (.add true) (held 0xA0 3 [])) = some (0xB0, 4, []) := by decide

/-- V-ADD, `n = 7`. -/
theorem test_add_eighth : after (exec (.add true) (held 0xB2 7 [])) = some (0x00, 0, [0xB3]) := by decide

/-- V-PIX, equality is "off". -/
theorem test_pix_equal : after (exec (.pix 100) (held 0x80 1 [])) = some (0x80, 2, []) := by decide

/-- V-PIX, the eighth bit by PIX. -/
theorem test_pix_eighth : after (exec (.pix 200) (held 0xFE 7 [])) = some (0x00, 0, [0xFF]) := by decide

/-- V-FL, `k = 6`. -/
theorem test_flush_partial : after (exec .flush (held 0xD4 6 [])) = some (0x00, 0, [0xD4]) := by decide

/-- V-FLT, a failed FLUSH. -/
theorem test_flush_fails : faultView (exec .flush { held 0xA0 3 [0xFF] with snkResp := some .fail }) =
    some (some .faulted, true, 1, [0xFF]) := by decide

/-- V-EOR, row-aligned. -/
theorem test_eor_aligned : after (exec .eor (held 0xA0 3 [])) = some (0x00, 0, [0xA0]) := by decide

/-- V-EOR, continuous. -/
theorem test_eor_continuous : after (exec .eor { held 0xA0 3 [] with rowal := false }) = some (0xA0, 3, []) := by decide

/-! ## Steps -/

/-- V-FLT, `0x80/2` and the word `0x002`. -/
theorem test_step_illegal_bit : faultView (step ((held 0x80 2 [0xAA]).withFetchWord 16 0x002)) =
    some (some .faulted, true, 2, [0xAA]) := by decide

/-- V-FLT, reset state and the word `0x3FF`. -/
theorem test_step_reserved : faultView (step (State.reset.withFetchWord 16 0x3FF)) = some (some .faulted, true, 3, []) := by
  decide

/-- V-FLT, FAULT 1, FCAUSE 2 and FLUSH: no step. -/
theorem test_step_blocked : faultView (step
    ({ held 0xA0 3 [0x01] with fault := true, fcause := .illegalBitValue }.withFetchWord 16 0x200)) =
    some (some .faulted, true, 2, [0x01]) := by decide

/-- V-RST, second row: `cfg_threshold = 0`, `cfg_row_aligned = 0`, a command presented at the same moment. -/
def resetInput : PortInput where
  rst := true
  cfgThreshold := some 0x00#8
  cfgRowAligned := some false
  cmdValid := true
  cmd := 0x200#11
  snkResp := some .ok

theorem test_step_reset : step { held 0xA0 3 [0xFF] with inputs := [resetInput] } =
    .next { State.resetWith 0x00#8 false with sinkBefore := [0xFF] } := rfl

/-- V-RST, last paragraph: `cfg_threshold` driven to 0 without `rst` has no effect on `PIX 50` (`0x132`). -/
theorem test_config_without_reset : after (step { State.reset with
    inputs := [{ commandInput 0x132#11 (some .ok) with cfgThreshold := some 0x00#8 }] }) = some (0x00, 1, []) := by decide

/-- Every command word runs as the first command after reset. -/
theorem test_first_commands :
    after (step (State.reset.withFetchWord 16 0x001)) = some (0x80, 1, []) ∧
    after (step (State.reset.withFetchWord 16 0x1C8)) = some (0x80, 1, []) ∧
    after (step (State.reset.withFetchWord 16 0x200)) = some (0x00, 0, []) ∧
    after (step (State.reset.withFetchWord 16 0x300)) = some (0x00, 0, []) := by decide

/-! ## Functions over sequences -/

/-- S5a: 30 alternating bits. -/
theorem test_pack_thirty_bits :
    pack ((List.range 30).map fun i => i % 2 == 0) = [0xAA, 0xAA, 0xAA, 0xA8] := by decide

/-- P1 and P2: the grid of three columns and two rows. -/
def grid3x2 : Grid := fun r c => ([[200, 100, 101], [0, 255, 99]].getD r []).getD c 0

theorem test_packed_grid : packedGrid true grid3x2 100 3 2 = [0xA0, 0x40] ∧ packedGrid false grid3x2 100 3 2 = [0xA8] := by
  decide

theorem test_drive_words : (drive grid3x2 3 2).map encode =
    [0x1C8, 0x164, 0x165, 0x300, 0x100, 0x1FF, 0x163, 0x300, 0x200] := by decide

/-- Rule R82, and the line of P1's first command. -/
theorem test_assemble_lines :
    assembleText [['P', 'I', 'X', ' ', ' ', '0', 'x', 'C', '8'], [';', 'x'], ['E', 'O', 'R', ' ', ';']] =
      some [.pix 200, .eor] ∧
    assembleLine ['A', 'D', 'D', ' ', '2'] = none ∧ assembleLine ['P', 'I', 'X', ' ', '2', '5', '6'] = none ∧
    assembleLine ['a', 'd', 'd', ' ', '1'] = none := by decide

/-! ## Witnesses -/

/-- A state in which the host presents `w`, the sink answering `r`. -/
def presents (s : State) (w : Word) (r : Option SinkResp) : State := { s with inputs := [commandInput w r] }

/-- A state after a failed write. -/
def faultedState : State := raiseFault .sinkWriteFailure (held 0xFE 7 [0x11])

theorem witness_MatchAndMaskSelectCommands :
    0x001#11 &&& 0x7FE#11 = 0x000#11 ∧ 0x1FF#11 &&& 0x700#11 = 0x100#11 ∧ 0x200#11 &&& 0x7FF#11 = 0x200#11 ∧
    0x300#11 &&& 0x7FF#11 = 0x300#11 ∧ decode 0x000#11 = .command (.add false) ∧
    decode 0x100#11 = .command (.pix 0#8) := by decide

theorem witness_StepRunsDecodedCommand :
    PresentsCommand (presents (held 0xA0 3 []) 0x1FF#11 (some .fail)) (commandInput 0x1FF#11 (some .fail)) [] ∧
    decode (commandInput 0x1FF#11 (some .fail)).cmd = .command (.pix 255#8) := by decide

theorem witness_IdleCoreHoldsItsState : (held 0xA0 3 []).inputs = [] ∧
    { held 0xA0 3 [] with inputs := [{ commandInput 0x200#11 none with cmdValid := false }] }.inputs =
      [{ commandInput 0x200#11 none with cmdValid := false }] ∧
    { commandInput 0x200#11 none with cmdValid := false }.rst = false := by decide

theorem witness_RejectedWordsTakeTheirFault :
    PresentsCommand (presents (held 0x80 2 []) 0x002#11 none) (commandInput 0x002#11 none) [] ∧
    (held 0x80 2 []).fault = false ∧
    2 ≤ (0x002#11 : Word).toNat ∧ (0x0FF#11 : Word).toNat ≤ 0x0FF ∧ 0x201 ≤ (0x201#11 : Word).toNat ∧
    (0x2FF#11 : Word).toNat ≤ 0x2FF ∧ 0x301 ≤ (0x301#11 : Word).toNat ∧ 0x301 ≤ (0x7FF#11 : Word).toNat := by decide

theorem witness_StepStopsOnlyOnSilentSink :
    PresentsCommand (presents (held 0xFE 7 []) 0x001#11 none) (commandInput 0x001#11 none) [] ∧
    decode 0x001#11 = .command (.add true) ∧ writesByte (.add true) (held 0xFE 7 []) = true := by decide

theorem witness_ThresholdIsStrictAndUnsigned : (128#8 : Byte).toNat ≤ (255#8 : Byte).toNat ∧ thr 128#8 127#8 = true := by
  decide

theorem witness_PixPutsThresholdedBit : (held 0x80 1 []).fault = false ∧ (held 0x80 1 []).cnt.toNat < 7 ∧
    (held 0xFC 6 []).cnt.toNat < 7 ∧ (held 0xFE 7 []).cnt.toNat = 7 ∧ (held 0xFE 7 []).snkResp = some .ok ∧
    { held 0xFE 7 [] with snkResp := some .fail }.snkResp = some .fail := by decide

theorem witness_AddPutsBitInNextStage : (held 0x00 0 []).fault = false ∧ (held 0x00 0 []).cnt.toNat < 7 ∧
    (held 0xFC 6 []).cnt.toNat < 7 ∧ (held 0xFE 7 []).cnt.toNat = 7 ∧ (held 0xFE 7 []).snkResp = some .ok ∧
    { held 0xFE 7 [] with snkResp := some .fail }.snkResp = some .fail := by decide

theorem witness_AddByFillCountIsASum : (held 0xA0 3 []).fault = false ∧ ZeroBelowFill (held 0xA0 3 []) ∧
    (held 0xA0 3 []).cnt.toNat < 7 ∧ ZeroBelowFill (held 0xFE 7 []) ∧ (held 0xFE 7 []).cnt.toNat = 7 ∧
    (held 0xFE 7 []).snkResp = some .ok := by decide

theorem witness_EighthBitEmitsAtOnce : (∃ b, Instr.add true = .add b) ∧ (held 0xFE 7 []).fault = false ∧
    (held 0xFE 7 []).cnt.toNat = 7 ∧ (held 0xFE 7 []).snkResp = some .ok :=
  ⟨⟨true, rfl⟩, rfl, rfl, rfl⟩

theorem witness_AssembleKeepsTopBits : (0 : Nat) ≤ 8 ∧ (8 : Nat) ≤ 8 ∧ ZeroBelowFill (held 0xA0 3 []) := by decide

theorem witness_FlushByFillCount : (held 0xA0 3 []).fault = false ∧ (held 0x00 0 []).cnt.toNat = 0 ∧
    0 < (held 0x80 1 []).cnt.toNat ∧ 0 < (held 0xFE 7 []).cnt.toNat ∧ (held 0x80 1 []).snkResp = some .ok ∧
    { held 0x80 1 [] with snkResp := some .fail }.snkResp = some .fail := by decide

/-- Two FLUSH commands still to come, the second with a failing sink. -/
def twoFlushes : State :=
  { held 0xD0 4 [] with inputs := presented [(.flush, some .ok), (.flush, some .fail)] }

theorem witness_RepeatedFlushIsIdempotent :
    exec .flush twoFlushes = .next { twoFlushes with acc := 0x00#8, cnt := 0#3, out := [0xD0#8],
                                                     cmdStatus := some .done, snkOut := some 0xD0#8 } ∧
    twoFlushes.inputs = presented ([some .ok, some .fail].map fun r => (.flush, r)) ++ [] :=
  ⟨rfl, rfl⟩

theorem witness_EorFlushesOnlyWhenRowAligned : (held 0xA0 3 []).rowal = true ∧ (held 0xA0 3 []).fault = false ∧
    0 < (held 0xA0 3 []).cnt.toNat ∧ (held 0xA0 3 []).snkResp = some .ok ∧ (held 0x00 0 []).cnt.toNat = 0 ∧
    { held 0xA0 3 [] with rowal := false }.rowal = false ∧
    { held 0xA0 3 [] with snkResp := some .fail }.snkResp = some .fail := by decide

theorem witness_EveryCommandCompletes : (held 0xFE 7 []).fault = false ∧
    (∀ i, writesByte i (held 0xFE 7 []) = true → (held 0xFE 7 []).snkResp = some .ok) ∧
    (∀ i, writesByte i { held 0x00 0 [] with snkResp := none } = true →
      { held 0x00 0 [] with snkResp := none }.snkResp = some .ok) :=
  ⟨rfl, fun _ _ => rfl, fun i h => by cases i <;> simp [writesByte, held, State.reset, State.resetWith] at h⟩

theorem witness_FaultTableOfCommands :
    PresentsCommand (presents (held 0xA0 3 []) 0x300#11 (some .fail)) (commandInput 0x300#11 (some .fail)) [] ∧
    step (presents (held 0xA0 3 []) 0x300#11 (some .fail)) =
      .next (raiseFault .sinkWriteFailure
        { held 0xA0 3 [] with sinkTail := Config.sinkTail 0, snkOut := some 0xA0#8, snkResp := some .fail }) :=
  ⟨by decide, rfl⟩

theorem witness_FaultEntryKeepsOutput : (held 0x80 1 [0x33]).fault = false ∧
    step (presents (held 0x80 1 [0x33]) 0x201#11 none) =
      .next (raiseFault .reservedCommand { held 0x80 1 [0x33] with snkResp := none }) ∧
    (raiseFault .reservedCommand { held 0x80 1 [0x33] with snkResp := none }).fault = true :=
  ⟨rfl, rfl, rfl⟩

theorem witness_FaultedCoreExecutesNothing : faultedState.fault = true ∧
    PresentsCommand (presents faultedState 0x002#11 none) (commandInput 0x002#11 none) [] :=
  ⟨rfl, rfl, rfl, rfl⟩

theorem witness_OnlyResetLeavesFault : faultedState.fault = true ∧ step faultedState = .next faultedState ∧
    step { faultedState with inputs := [resetInput] } =
      .next { State.resetWith 0x00#8 false with sinkBefore := [0x11], draws := 1 } :=
  ⟨rfl, rfl, rfl⟩

theorem witness_FrameOfAddAndPix : (∃ b, Instr.add true = .add b) ∧ (∃ x, Instr.pix 7#8 = .pix x) ∧
    exec (.add true) (held 0xA0 3 [0x55]) = .next { held 0xB0 4 [0x55] with cmdStatus := some .done } ∧
    exec (.pix 7#8) (held 0xFE 7 [0x55]) =
      .next { held 0x00 0 [0x55, 0xFE] with cmdStatus := some .done, snkOut := some 0xFE#8 } :=
  ⟨⟨_, rfl⟩, ⟨_, rfl⟩, rfl, rfl⟩

theorem witness_FrameOfFlushAndEor :
    exec .flush (held 0xA0 3 [0x55]) =
      .next { held 0x00 0 [0x55, 0xA0] with cmdStatus := some .done, snkOut := some 0xA0#8 } ∧
    exec .eor { held 0xA0 3 [0x55] with rowal := false } =
      .next { held 0xA0 3 [0x55] with rowal := false, cmdStatus := some .done } :=
  ⟨rfl, rfl⟩

theorem witness_StepAppendsAtMostOneByte :
    step (presents (held 0xFE 7 [0x55]) 0x001#11 (some .ok)) =
      .next { held 0x00 0 [0x55, 0xFF] with cmdStatus := some .done, snkOut := some 0xFF#8 } ∧
    (∀ p rest, (presents (held 0xFE 7 [0x55]) 0x001#11 (some .ok)).inputs = p :: rest → p.rst = false) :=
  ⟨rfl, fun p rest h => by injection h with h; rw [← h]; rfl⟩

theorem witness_SinkIsNeverRolledBack : CoreInv (presents State.reset 0x001#11 (some .ok)) ∧
    step (presents State.reset 0x001#11 (some .ok)) = .next { held 0x80 1 [] with cmdStatus := some .done } :=
  ⟨⟨by decide, by decide, by decide, by decide⟩, rfl⟩

theorem witness_ResetActsInEveryState :
    { faultedState with inputs := [resetInput] }.inputs = [resetInput] ∧ resetInput.rst = true ∧
    resetInput.cmdValid = true :=
  ⟨rfl, rfl, rfl⟩

theorem witness_ConfigurationIsFrozenBetweenResets :
    step (presents State.reset 0x001#11 (some .ok)) = .next { held 0x80 1 [] with cmdStatus := some .done } ∧
    (∀ p rest, (presents State.reset 0x001#11 (some .ok)).inputs = p :: rest → p.rst = false) ∧
    (commandInput 0x001#11 (some .ok)).rst = false :=
  ⟨rfl, fun p rest h => by injection h with h; rw [← h]; rfl, rfl⟩

/-- The premises of StepKeepsInvariant, in a state with pending bits and in a fault state that a reset leaves. -/
theorem witness_StepKeepsInvariant : CoreInv (presents (held 0xA0 3 [0x55]) 0x1FF#11 (some .ok)) ∧
    step (presents (held 0xA0 3 [0x55]) 0x1FF#11 (some .ok)) =
      .next { held 0xB0 4 [0x55] with cmdStatus := some .done } ∧
    CoreInv { faultedState with inputs := [resetInput] } :=
  ⟨⟨by decide, by decide, by decide, by decide⟩, rfl,
    ⟨(fun h => by cases h), by decide, by decide, (fun h => absurd rfl h)⟩⟩

theorem witness_CompletedCommandKeeps : (held 0xA0 3 [0x55]).fault = false ∧ ZeroBelowFill (held 0xA0 3 [0x55]) ∧
    exec (.add true) (held 0xA0 3 [0x55]) = .next { held 0xB0 4 [0x55] with cmdStatus := some .done } ∧
    { held 0xB0 4 [0x55] with cmdStatus := some .done }.fault = false :=
  ⟨rfl, by decide, rfl, rfl⟩

theorem witness_CommandsAppendBitsInOrder : (held 0xFE 7 [0x55]).fault = false ∧
    exec (.pix 7#8) (held 0xFE 7 [0x55]) =
      .next { held 0x00 0 [0x55, 0xFE] with cmdStatus := some .done, snkOut := some 0xFE#8 } ∧
    exec .flush (held 0xA0 3 [0x55]) =
      .next { held 0x00 0 [0x55, 0xA0] with cmdStatus := some .done, snkOut := some 0xA0#8 } :=
  ⟨rfl, rfl, rfl⟩

/-- Two states that hold the same three bits and differ below the fill. -/
theorem witness_SamePendingBitsAreIndistinguishable : SamePending (held 0xA0 3 []) (held 0xBF 3 []) ∧
    held 0xA0 3 [] ≠ held 0xBF 3 [] :=
  ⟨⟨by decide, by decide⟩, by decide⟩

theorem witness_ShiftRegisterEmitsSameBytes :
    { held 0xA0 3 [] with inputs := presented ([Instr.add true, Instr.eor].map fun i => (i, some SinkResp.ok)) }.fault = false ∧
    (held 0xA0 3 []).acc = shiftJustified { sr := 0xFD#8, n := 3#3 } := by decide

theorem witness_AddsThenFlushPackTheBits :
    { State.reset with inputs := presented ([true, false].map fun b => (Instr.add b, some SinkResp.ok)) ++
      [commandInput (encode .flush) (some .ok)] }.fault = false ∧ State.reset.cnt = 0#3 ∧
    State.reset.acc = 0x00#8 := by decide

theorem witness_RowAlignedGridPacksEachRow :
    { State.reset with inputs := presented ((drive grid3x2 3 2).map fun i => (i, some .ok)) }.rowal = true ∧
    State.reset.fault = false ∧ State.reset.cnt = 0#3 := ⟨rfl, rfl, rfl⟩

theorem witness_ContinuousGridPacksAllBits :
    { State.resetWith 100#8 false with inputs := presented ((drive grid3x2 3 2).map fun i => (i, some .ok)) }.rowal =
      false ∧ (State.resetWith 100#8 false).fault = false ∧ (State.resetWith 100#8 false).cnt = 0#3 := ⟨rfl, rfl, rfl⟩

/-- One EOR on an empty accumulator, whose step the sink does not even answer. -/
theorem witness_ModesAgreeWhenRowsFillBytes : 8 % 8 = 0 ∧ State.reset.fault = false ∧
    (∀ before r after u, [(Instr.eor, (none : Option SinkResp))] = before ++ (.eor, r) :: after →
      runSteps before.length { State.reset with rowal := true, inputs := presented [(.eor, none)] } = .next u →
      u.fault = false → u.cnt = 0#3) ∧
    runSteps 1 { State.reset with rowal := true, inputs := presented [(.eor, none)] } =
      .next { State.reset with snkResp := none, cmdStatus := some .done } ∧
    runSteps 1 { State.reset with rowal := false, inputs := presented [(.eor, none)] } =
      .next { State.reset with rowal := false, snkResp := none, cmdStatus := some .done } := by
  refine ⟨rfl, rfl, fun before r after u h hu _ => ?_, rfl, rfl⟩
  cases before with
  | nil => injection hu with hu; rw [← hu]; rfl
  | cons c rest => simp at h

theorem witness_ZeroAreaGridWritesNothing :
    [(Instr.eor, (none : Option SinkResp)), (.flush, some .fail)].map Prod.fst = drive grid3x2 0 1 ∧
    State.reset.fault = false ∧ State.reset.cnt = 0#3 := by decide

theorem witness_PixelStandsAtItsPosition : (1 : Nat) < 2 ∧ (2 : Nat) < 3 ∧ State.reset.out = [] ∧
    State.reset.fault = false ∧ State.reset.cnt = 0#3 ∧ State.reset.rowal = true ∧
    (State.resetWith 100#8 false).rowal = false := by decide

theorem witness_FailedRunKeepsALeadingPart :
    ((drive grid3x2 3 2).map fun i => (i, some SinkResp.fail)).map Prod.fst = drive grid3x2 3 2 ∧
    (∀ c ∈ (drive grid3x2 3 2).map fun i => (i, some SinkResp.fail), c.2 ≠ none) ∧
    State.reset.fault = false ∧ State.reset.cnt = 0#3 := by decide

theorem witness_FinalFlushWritesOnlyTheTail :
    { State.reset with inputs := presented ((drive grid3x2 3 2).map fun i => (i, some .ok)) }.fault = false ∧
    State.reset.cnt = 0#3 ∧ State.reset.rowal = true ∧ (State.resetWith 100#8 false).rowal = false ∧ 3 * 2 % 8 ≠ 0 ∧
    8 * 1 % 8 = 0 := ⟨rfl, rfl, rfl, rfl, by decide, rfl⟩

/-- The state between the two runs of P4b, and one step of the second. -/
theorem witness_RunningOnAppendsAfterCleanEnd : CoreInv (held 0x00 0 [0xE0]) ∧ CleanEnd (held 0x00 0 [0xE0]) ∧
    runSteps 1 { held 0x00 0 [0xE0] with inputs := presented [(.add false, some .ok)] } =
      .next { held 0x00 1 [0xE0] with cmdStatus := some .done } :=
  ⟨⟨by decide, by decide, by decide, by decide⟩, by decide, rfl⟩

end Sys2Proof.Tests
end

section
/-! When a command, a presented word and a step answer a next state, and what a completed command reports (rules R14, R141,
R171). -/

namespace Sys2Proof.Machine

/-! ## What a completed command leaves in the report and the fault registers -/

@[simp] theorem unwritten_cmdStatus (i : Instr) (s : State) : (unwritten i s).cmdStatus = some .done := by
  cases i <;> rfl

@[simp] theorem unwritten_fault (i : Instr) (s : State) : (unwritten i s).fault = s.fault := by
  cases i <;> rfl

@[simp] theorem unwritten_fcause (i : Instr) (s : State) : (unwritten i s).fcause = s.fcause := by
  cases i <;> rfl

@[simp] theorem emitted_cmdStatus (v : Byte) (s : State) : (emitted v s).cmdStatus = some .done := rfl

@[simp] theorem emitted_fault (v : Byte) (s : State) : (emitted v s).fault = s.fault := rfl

@[simp] theorem emitted_fcause (v : Byte) (s : State) : (emitted v s).fcause = s.fcause := rfl

/-! ## What answers a next state -/

/-- Taking the inputs of a step changes neither CNT nor ROWAL, on which presenting a byte depends. -/
@[simp] theorem writesByte_takeInput (i : Instr) (p : PortInput) (rest : List PortInput) (s : State) :
    writesByte i (takeInput p rest s) = writesByte i s := by
  cases i <;> rfl

theorem exec_answers_next (i : Instr) (s : State)
    (h : s.fault = false → writesByte i s = true → s.snkResp ≠ none) : ∃ t, exec i s = .next t := by
  cases hf : s.fault with
  | true => exact ⟨_, exec_faulted i s hf⟩
  | false =>
    cases hw : writesByte i s with
    | false => exact ⟨_, exec_unwritten i s hf hw⟩
    | true =>
      rcases hr : s.snkResp with _ | (_ | _)
      · exact absurd hr (h hf hw)
      · exact ⟨_, exec_writes_ok i s hf hw hr⟩
      · exact ⟨_, exec_writes_fail i s hf hw hr⟩

theorem rejectWord_answers_next (c : FCause) (s : State) : ∃ t, rejectWord c s = .next t := by
  cases hf : s.fault with
  | true => exact ⟨_, rejectWord_faulted c s hf⟩
  | false => exact ⟨_, rejectWord_running c s hf⟩

theorem presentWord_answers_next (w : Word) (s : State)
    (h : ∀ i, decode w = .command i → s.fault = false → writesByte i s = true → s.snkResp ≠ none) :
    ∃ t, presentWord w s = .next t := by
  cases hd : decode w with
  | command i =>
    rw [presentWord_command w i s hd]
    exact exec_answers_next i s (h i hd)
  | illegalBitValue =>
    rw [presentWord_illegal w s hd]
    exact rejectWord_answers_next _ s
  | reserved =>
    rw [presentWord_reserved w s hd]
    exact rejectWord_answers_next _ s

/-- A presented word that decodes to a command runs it in the state whose inputs have been taken. -/
theorem step_command (s : State) (p : PortInput) (rest : List PortInput) (i : Instr)
    (hp : PresentsCommand s p rest) (hd : decode p.cmd = .command i) : step s = exec i (takeInput p rest s) :=
  (step_present s p rest hp).trans (presentWord_command p.cmd i _ hd)

/-- The next inputs present a command that writes a byte, and the sink never answers it (rule R171;
spec/93_implementation_defined.md U6). -/
def PresentsByteToSilentSink (s : State) : Prop :=
  ∃ p rest i, PresentsCommand s p rest ∧ decode p.cmd = .command i ∧ s.fault = false ∧ writesByte i s = true ∧
    p.snkResp = none

theorem step_stops_of_silent (s : State) (h : PresentsByteToSilentSink s) : step s = .fault .sinkNeverAnswers := by
  obtain ⟨p, rest, i, hp, hd, hf, hw, hr⟩ := h
  rw [step_command s p rest i hp hd]
  exact exec_writes_silent i _ hf (by simpa using hw) hr

theorem step_answers_next (s : State) (h : ¬ PresentsByteToSilentSink s) : ∃ t, step s = .next t := by
  rcases hi : s.inputs with _ | ⟨p, rest⟩
  · exact ⟨s, step_no_input s hi⟩
  · cases hr : p.rst with
    | true => exact ⟨_, step_reset s p rest hi hr⟩
    | false =>
      cases hv : p.cmdValid with
      | false => exact ⟨_, step_idle s p rest hi hr hv⟩
      | true =>
        rw [step_present s p rest ⟨hi, hr, hv⟩]
        refine presentWord_answers_next _ _ fun i hd hf hw hn => h ?_
        exact ⟨p, rest, i, ⟨hi, hr, hv⟩, hd, hf, by simpa using hw, hn⟩

/-! ## The obligations -/

/-- Settles O9, by whether the next inputs present a byte to a silent sink. -/
theorem stepStopsOnlyOnSilentSink : Obligations.StepStopsOnlyOnSilentSink := by
  intro s
  by_cases h : PresentsByteToSilentSink s
  · exact .inl ⟨h, step_stops_of_silent s h⟩
  · exact .inr ⟨h, step_answers_next s h⟩

/-- Settles O19: the command ends without presenting a byte, or its byte is accepted. -/
theorem everyCommandCompletes : Obligations.EveryCommandCompletes := by
  intro s i hf hok
  cases hw : writesByte i s with
  | false => exact ⟨unwritten i s, exec_unwritten i s hf hw, by simp [hf]⟩
  | true => exact ⟨emitted (byteOf i s) s, exec_writes_ok i s hf hw (hok hw), by simp [hf]⟩

/-- Settles O6, by the equation of a step that presents a command. -/
theorem stepRunsDecodedCommand : Obligations.StepRunsDecodedCommand :=
  step_command

end Sys2Proof.Machine
end

section
/-! What storing the next bit, assembling a byte and shifting do to the accumulator's bits, and the zeros below the fill as a
fixed point of byte assembly (rules R23, R100, R103). -/

namespace Sys2Proof.Machine

/-- Assembling one stage more, after `b` has been stored in it, is assembling the stages before it and storing `b`. -/
theorem assemble_setBit_next (a : Byte) (k : Nat) (b : Bool) (hk : k < 8) :
    assemble (setBit a (stagePos k) b) (k + 1) = setBit (assemble a k) (stagePos k) b := by
  have hpos : stagePos k < 8 := by unfold stagePos; omega
  refine BitVec.eq_of_getLsbD_eq fun j _ => ?_
  rw [getLsbD_assemble _ _ _ hk, getLsbD_setBit _ _ _ _ hpos, getLsbD_setBit _ _ _ _ hpos,
    getLsbD_assemble _ _ _ hk.le]
  unfold stagePos
  by_cases h : j = 7 - k
  · subst h; simp
  · rw [if_neg h, if_neg h]
    congr 1
    simp only [decide_eq_decide]; omega

/-- The residue modulo `2 ^ m` is zero exactly when the `m` lowest bits are. -/
theorem toNat_mod_two_pow_eq_zero_iff (a : Byte) (m : Nat) :
    a.toNat % 2 ^ m = 0 ↔ ∀ j < m, a.getLsbD j = false := by
  have hbit (j : Nat) : (a.toNat % 2 ^ m).testBit j = (decide (j < m) && a.getLsbD j) := by
    rw [Nat.testBit_mod_two_pow, BitVec.testBit_toNat]
  constructor
  · intro h j hj
    simpa [h, hj] using (hbit j).symm
  · intro h
    refine Nat.eq_of_testBit_eq fun j => ?_
    rw [hbit, Nat.zero_testBit]
    by_cases hj : j < m
    · rw [h j hj, Bool.and_false]
    · rw [decide_eq_false hj, Bool.false_and]

/-- Assembling `k` stages changes nothing exactly when zeros stand below them. -/
theorem assemble_eq_self_iff (a : Byte) (k : Nat) (hk : k ≤ 8) :
    assemble a k = a ↔ a.toNat % 2 ^ (8 - k) = 0 := by
  rw [toNat_mod_two_pow_eq_zero_iff]
  constructor
  · intro h j hj
    rw [← h, getLsbD_assemble a k j hk, decide_eq_false (by omega), Bool.false_and]
  · intro h
    refine BitVec.eq_of_getLsbD_eq fun j _ => ?_
    rw [getLsbD_assemble a k j hk]
    by_cases hj : 8 - k ≤ j
    · rw [decide_eq_true hj, Bool.true_and]
    · rw [h j (by omega), Bool.and_false]

/-- All eight stages are the whole accumulator. -/
@[simp] theorem assemble_eight (a : Byte) : assemble a 8 = a :=
  (assemble_eq_self_iff a 8 le_rfl).2 (Nat.mod_one _)

theorem cnt_toNat_lt (s : State) : s.cnt.toNat < 8 := s.cnt.isLt

/-- The fill counter counts one up below the last stage (rule R103). -/
theorem cnt_toNat_add_one (s : State) (h : s.cnt ≠ 7#3) : (s.cnt + 1).toNat = s.cnt.toNat + 1 := by
  have := cnt_toNat_lt s
  bv_omega

theorem zeroBelowFill_iff_assemble (s : State) : ZeroBelowFill s ↔ assemble s.acc s.cnt.toNat = s.acc :=
  (assemble_eq_self_iff s.acc s.cnt.toNat (cnt_toNat_lt s).le).symm

/-- Storing a bit in the next free stage keeps zeros below the fill (rules R103, R111). -/
theorem assemble_withBit (b : Bool) (s : State) :
    assemble (withBit b s) (s.cnt.toNat + 1) = setBit (assemble s.acc s.cnt.toNat) (stagePos s.cnt.toNat) b :=
  assemble_setBit_next s.acc s.cnt.toNat b (cnt_toNat_lt s)

end Sys2Proof.Machine
end

section
/-! The fields a command's three ways to end leave behind, and from them the frame of every command: what it keeps when it
answers a next state (rules R39, R146); with it, what a step does to OUT and that an idle step holds the state. -/

namespace Sys2Proof.Machine

/-! ## The fields after a command that presents no byte -/

@[simp] theorem unwritten_thresh (i : Instr) (s : State) : (unwritten i s).thresh = s.thresh := by cases i <;> rfl
@[simp] theorem unwritten_rowal (i : Instr) (s : State) : (unwritten i s).rowal = s.rowal := by cases i <;> rfl
@[simp] theorem unwritten_out (i : Instr) (s : State) : (unwritten i s).out = s.out := by cases i <;> rfl
@[simp] theorem unwritten_inputs (i : Instr) (s : State) : (unwritten i s).inputs = s.inputs := by cases i <;> rfl
@[simp] theorem unwritten_snkResp (i : Instr) (s : State) : (unwritten i s).snkResp = s.snkResp := by cases i <;> rfl
@[simp] theorem unwritten_sinkBefore (i : Instr) (s : State) : (unwritten i s).sinkBefore = s.sinkBefore := by
  cases i <;> rfl
@[simp] theorem unwritten_sinkTail (i : Instr) (s : State) : (unwritten i s).sinkTail = s.sinkTail := by cases i <;> rfl
@[simp] theorem unwritten_draws (i : Instr) (s : State) : (unwritten i s).draws = s.draws := by cases i <;> rfl

/-! ## The fields after an accepted byte -/

@[simp] theorem emitted_acc (v : Byte) (s : State) : (emitted v s).acc = 0x00#8 := rfl
@[simp] theorem emitted_cnt (v : Byte) (s : State) : (emitted v s).cnt = 0#3 := rfl
@[simp] theorem emitted_thresh (v : Byte) (s : State) : (emitted v s).thresh = s.thresh := rfl
@[simp] theorem emitted_rowal (v : Byte) (s : State) : (emitted v s).rowal = s.rowal := rfl
@[simp] theorem emitted_out (v : Byte) (s : State) : (emitted v s).out = s.out ++ [v] := rfl
@[simp] theorem emitted_snkOut (v : Byte) (s : State) : (emitted v s).snkOut = some v := rfl
@[simp] theorem emitted_inputs (v : Byte) (s : State) : (emitted v s).inputs = s.inputs := rfl
@[simp] theorem emitted_snkResp (v : Byte) (s : State) : (emitted v s).snkResp = s.snkResp := rfl
@[simp] theorem emitted_sinkBefore (v : Byte) (s : State) : (emitted v s).sinkBefore = s.sinkBefore := rfl
@[simp] theorem emitted_sinkTail (v : Byte) (s : State) : (emitted v s).sinkTail = s.sinkTail := rfl
@[simp] theorem emitted_draws (v : Byte) (s : State) : (emitted v s).draws = s.draws := rfl

/-! ## The fields after a failed write -/

@[simp] theorem emitFailed_thresh (v : Byte) (s : State) : (emitFailed v s).thresh = s.thresh := rfl
@[simp] theorem emitFailed_rowal (v : Byte) (s : State) : (emitFailed v s).rowal = s.rowal := rfl
@[simp] theorem emitFailed_fault (v : Byte) (s : State) : (emitFailed v s).fault = true := rfl
@[simp] theorem emitFailed_fcause (v : Byte) (s : State) : (emitFailed v s).fcause = .sinkWriteFailure := rfl
@[simp] theorem emitFailed_out (v : Byte) (s : State) : (emitFailed v s).out = s.out := rfl
@[simp] theorem emitFailed_cmdStatus (v : Byte) (s : State) : (emitFailed v s).cmdStatus = some .faulted := rfl
@[simp] theorem emitFailed_inputs (v : Byte) (s : State) : (emitFailed v s).inputs = s.inputs := rfl
@[simp] theorem emitFailed_snkResp (v : Byte) (s : State) : (emitFailed v s).snkResp = s.snkResp := rfl
@[simp] theorem emitFailed_sinkBefore (v : Byte) (s : State) : (emitFailed v s).sinkBefore = s.sinkBefore := rfl

/-! ## When a command presents a byte -/

theorem writesByte_of_adding (i : Instr) (s : State) (hi : (∃ b, i = .add b) ∨ ∃ x, i = .pix x) :
    writesByte i s = true ↔ s.cnt.toNat = 7 := by
  obtain ⟨b, rfl⟩ | ⟨x, rfl⟩ := hi <;> simp [writesByte, BitVec.toNat_eq]

theorem writesByte_of_flushing (i : Instr) (s : State) (hi : i = .flush ∨ i = .eor) :
    writesByte i s = true ↔ s.cnt.toNat ≠ 0 ∧ (i = .flush ∨ s.rowal = true) := by
  obtain rfl | rfl := hi <;> simp [writesByte, BitVec.toNat_eq, and_comm]

/-! ## The frame of every command -/

/-- No command changes the configuration, the inputs or what the sink held before (rules R39, R166). -/
theorem exec_keeps_configuration (i : Instr) (s t : State) (h : exec i s = .next t) :
    t.thresh = s.thresh ∧ t.rowal = s.rowal ∧ t.inputs = s.inputs ∧ t.snkResp = s.snkResp ∧
      t.sinkBefore = s.sinkBefore := by
  obtain ⟨-, rfl⟩ | ⟨-, -, rfl⟩ | ⟨-, -, -, rfl⟩ | ⟨-, -, -, rfl⟩ := exec_next_cases i s t h <;> simp

/-- Only a failed write touches the fault registers, the sink's tail and the free values (rules R146, R147). -/
theorem exec_keeps_faultRegisters (i : Instr) (s t : State) (h : exec i s = .next t)
    (hn : ¬ (s.fault = false ∧ writesByte i s = true ∧ s.snkResp = some .fail)) :
    t.fault = s.fault ∧ t.fcause = s.fcause ∧ t.sinkTail = s.sinkTail ∧ t.draws = s.draws := by
  obtain ⟨-, rfl⟩ | ⟨-, -, rfl⟩ | ⟨-, -, -, rfl⟩ | ⟨hf, hw, hr, rfl⟩ := exec_next_cases i s t h
  · simp
  · simp
  · simp
  · exact absurd ⟨hf, hw, hr⟩ hn

/-- A command leaves OUT as it is or appends the byte it presents, which the sink accepts (rules R30, R110). -/
theorem exec_out_cases (i : Instr) (s t : State) (h : exec i s = .next t) :
    t.out = s.out ∨
      (s.fault = false ∧ writesByte i s = true ∧ s.snkResp = some .ok ∧ t = emitted (byteOf i s) s) := by
  obtain ⟨-, rfl⟩ | ⟨-, -, rfl⟩ | hok | ⟨-, -, -, rfl⟩ := exec_next_cases i s t h
  · exact .inl rfl
  · exact .inl (unwritten_out i s)
  · exact .inr hok
  · exact .inl rfl

/-- No byte but the one at the append address reads otherwise after a command (rule R52). -/
theorem exec_keeps_bytes_elsewhere (i : Instr) (s t : State) (h : exec i s = .next t) (a : Nat)
    (ha : a ≠ appendAddr s) : readByte t a = readByte s a := by
  rcases exec_out_cases i s t h with ho | ⟨-, -, -, rfl⟩
  · simp only [readByte, ho]
  · rw [← memory_read, memory_of_append s _ _ (emitted_out _ s), Memory.read_write_other _ _ _ _ ha, memory_read]

/-- Without an accepted byte every address reads as before a command. -/
theorem exec_keeps_bytes (i : Instr) (s t : State) (h : exec i s = .next t)
    (hn : ¬ (s.fault = false ∧ writesByte i s = true ∧ s.snkResp = some .ok)) (a : Nat) :
    readByte t a = readByte s a := by
  rcases exec_out_cases i s t h with ho | ⟨hf, hw, hr, -⟩
  · simp only [readByte, ho]
  · exact absurd ⟨hf, hw, hr⟩ hn

/-- FLUSH and EOR touch the accumulator only when they present a byte (rules R106, R121). -/
theorem exec_flushing_keeps_accumulator (i : Instr) (s t : State) (hi : i = .flush ∨ i = .eor)
    (h : exec i s = .next t) (hn : ¬ (s.fault = false ∧ writesByte i s = true)) : t.acc = s.acc ∧ t.cnt = s.cnt := by
  obtain ⟨-, rfl⟩ | ⟨-, -, rfl⟩ | ⟨hf, hw, -, -⟩ | ⟨hf, hw, -, -⟩ := exec_next_cases i s t h
  · exact ⟨rfl, rfl⟩
  · obtain rfl | rfl := hi <;> exact ⟨rfl, rfl⟩
  · exact absurd ⟨hf, hw⟩ hn
  · exact absurd ⟨hf, hw⟩ hn

/-! ## The obligations -/

/-- Settles O24: the frame of every command, where presenting a byte is `CNT = 7`. -/
theorem frameOfAddAndPix : Obligations.FrameOfAddAndPix := by
  intro s t i hi h
  obtain ⟨hthresh, hrowal, hinputs, hresp, hbefore⟩ := exec_keeps_configuration i s t h
  have hw := writesByte_of_adding i s hi
  refine ⟨hthresh, hrowal, hinputs, hresp, hbefore, fun hn => ?_, exec_keeps_bytes_elsewhere i s t h, fun hn => ?_⟩
  · exact exec_keeps_faultRegisters i s t h (by rwa [hw])
  · exact exec_keeps_bytes i s t h (by rwa [hw])

/-- Settles O25: the frame of every command, where presenting a byte is `CNT ≠ 0` and, for EOR, row-aligned mode. -/
theorem frameOfFlushAndEor : Obligations.FrameOfFlushAndEor := by
  intro s t i hi h
  obtain ⟨hthresh, hrowal, hinputs, hresp, hbefore⟩ := exec_keeps_configuration i s t h
  have hw := writesByte_of_flushing i s hi
  refine ⟨hthresh, hrowal, hinputs, hresp, hbefore, fun hn => ?_, fun hn => ?_,
    exec_keeps_bytes_elsewhere i s t h, fun hn => ?_⟩
  · exact exec_flushing_keeps_accumulator i s t hi h (by rwa [hw])
  · exact exec_keeps_faultRegisters i s t h (by rwa [hw, and_assoc])
  · exact exec_keeps_bytes i s t h (by rwa [hw, and_assoc])

/-- Settles O26: of all a step can do, only an accepted byte of a presented command changes OUT. -/
theorem stepAppendsAtMostOneByte : Obligations.StepAppendsAtMostOneByte := by
  intro s t h hnr
  rcases step_next_cases s t h with ⟨-, rfl⟩ | ⟨p, rest, hi, hcases⟩
  · exact .inl rfl
  obtain ⟨hr, -⟩ | ⟨-, -, rfl⟩ | ⟨-, -, -, rfl⟩ | ⟨-, -, -, -, rfl⟩ | ⟨-, -, -, -, rfl⟩ | ⟨-, -, -, i, -, he⟩ := hcases
  · simp [hnr p rest hi] at hr
  · exact .inl rfl
  · exact .inl rfl
  · exact .inl rfl
  · exact .inl rfl
  · rcases exec_out_cases i _ t he with ho | ⟨hf, -, hok, rfl⟩
    · exact .inl ho
    · exact .inr ⟨p, rest, _, hi, hok, rfl, rfl, hf⟩

/-- Settles O7, by the two equations of a step that presents nothing. -/
theorem idleCoreHoldsItsState : Obligations.IdleCoreHoldsItsState :=
  fun s => ⟨step_no_input s, step_idle s⟩

end Sys2Proof.Machine
end
section
/-! The invariant of the CORE is kept by every named update of the state, hence by every command and every step (rules R23,
R29, R111, R147); a reset establishes it. -/

namespace Sys2Proof.Machine

/-! ## The updates keep the invariant -/

/-- A running core that holds the invariant has no cause and no tail. -/
theorem CoreInv.running {s : State} (h : CoreInv s) (hf : s.fault = false) : s.fcause = .none ∧ s.sinkTail = [] := by
  have hc : s.fcause = .none := by simpa [hf] using h.causeAgrees
  exact ⟨hc, h.tailOnlyOnFailure (by simp [hc])⟩

theorem CoreInv.takeInput {s : State} (h : CoreInv s) (p : PortInput) (rest : List PortInput) :
    CoreInv (takeInput p rest s) :=
  ⟨h.zeroBelowFill, h.causeAgrees, h.statusAgrees, h.tailOnlyOnFailure⟩

theorem CoreInv.blocked {s : State} (h : CoreInv s) (hf : s.fault = true) : CoreInv (blocked s) where
  zeroBelowFill := h.zeroBelowFill
  causeAgrees := h.causeAgrees
  statusAgrees := by simp [hf]
  tailOnlyOnFailure := h.tailOnlyOnFailure

/-- Taking a fault establishes the invariant where the cause is one and accounts for the sink's tail. -/
theorem coreInv_raiseFault (c : FCause) (s : State) (hc : c ≠ .none)
    (htail : c ≠ .sinkWriteFailure → s.sinkTail = []) : CoreInv (raiseFault c s) where
  zeroBelowFill h := by simp at h
  causeAgrees := by simp [hc]
  statusAgrees := by simp
  tailOnlyOnFailure := by simpa using htail

theorem coreInv_emitFailed (v : Byte) (s : State) : CoreInv (emitFailed v s) :=
  coreInv_raiseFault _ _ (by decide) (fun h => absurd rfl h)

/-- A running core with no cause, no tail and no report of a fault holds the invariant when it has zeros below the fill. -/
theorem coreInv_of_running {t : State} (hz : ZeroBelowFill t) (hf : t.fault = false) (hc : t.fcause = .none)
    (hs : t.cmdStatus ≠ some .faulted) (ht : t.sinkTail = []) : CoreInv t where
  zeroBelowFill _ := hz
  causeAgrees := by simp [hf, hc]
  statusAgrees := by simp [hf, hs]
  tailOnlyOnFailure _ := ht

theorem CoreInv.emitted {s : State} (h : CoreInv s) (hf : s.fault = false) (v : Byte) : CoreInv (emitted v s) := by
  obtain ⟨hc, ht⟩ := h.running hf
  exact coreInv_of_running (Nat.zero_mod _) hf hc (by simp) ht

/-- Storing a bit below the last stage keeps zeros below the fill (rules R103, R111). -/
theorem zeroBelowFill_of_withBit {s t : State} (b : Bool) (h : ZeroBelowFill s) (h7 : s.cnt ≠ 7#3)
    (hacc : t.acc = withBit b s) (hcnt : t.cnt = s.cnt + 1) : ZeroBelowFill t := by
  rw [zeroBelowFill_iff_assemble] at h ⊢
  rw [hacc, hcnt, cnt_toNat_add_one s h7, assemble_withBit, h, withBit]

theorem zeroBelowFill_unwritten (i : Instr) (s : State) (h : ZeroBelowFill s) (hw : writesByte i s = false) :
    ZeroBelowFill (unwritten i s) := by
  cases i with
  | add b => exact zeroBelowFill_of_withBit b h (by simpa [writesByte] using hw) rfl rfl
  | pix x => exact zeroBelowFill_of_withBit (thr x s.thresh) h (by simpa [writesByte] using hw) rfl rfl
  | flush => exact h
  | eor => exact h

theorem CoreInv.unwritten {s : State} (h : CoreInv s) (hf : s.fault = false) (i : Instr)
    (hw : writesByte i s = false) : CoreInv (unwritten i s) := by
  obtain ⟨hc, ht⟩ := h.running hf
  exact coreInv_of_running (zeroBelowFill_unwritten i s (h.zeroBelowFill hf) hw) (by simpa using hf) (by simpa using hc)
    (by simp) (by simpa using ht)

/-- A reset establishes the invariant from every state (rules R38, R161). -/
theorem coreInv_assertReset (p : PortInput) (s : State) : CoreInv (assertReset p s) :=
  coreInv_of_running (Nat.zero_mod _) rfl rfl (by simp) rfl

/-! ## Commands keep the invariant -/

theorem exec_keeps_coreInv (i : Instr) (s t : State) (h : CoreInv s) (he : exec i s = .next t) : CoreInv t := by
  obtain ⟨hf, rfl⟩ | ⟨hf, hw, rfl⟩ | ⟨hf, -, -, rfl⟩ | ⟨-, -, -, rfl⟩ := exec_next_cases i s t he
  · exact h.blocked hf
  · exact h.unwritten hf i hw
  · exact h.emitted hf _
  · exact coreInv_emitFailed _ s

/-! ## The obligations -/

/-- Settles O32: every way a step can answer a next state keeps the invariant. -/
theorem stepKeepsInvariant : Obligations.StepKeepsInvariant := by
  intro s t h hs
  rcases step_next_cases s t hs with ⟨-, rfl⟩ | ⟨p, rest, -, hcases⟩
  · exact h
  obtain ⟨-, rfl⟩ | ⟨-, -, rfl⟩ | ⟨-, -, hf, rfl⟩ | ⟨-, -, hf, -, rfl⟩ | ⟨-, -, hf, -, rfl⟩ | ⟨-, -, -, i, -, he⟩ := hcases
  · exact coreInv_assertReset p _
  · exact h.takeInput p rest
  · exact (h.takeInput p rest).blocked hf
  · exact coreInv_raiseFault _ _ (by decide) fun _ => (h.running hf).2
  · exact coreInv_raiseFault _ _ (by decide) fun _ => (h.running hf).2
  · exact exec_keeps_coreInv i _ t (h.takeInput p rest) he

/-- Settles O28: the fields of `State.resetWith`, and its defaults. -/
theorem resetValues : Obligations.ResetValues :=
  ⟨fun _ _ => ⟨rfl, rfl, rfl, rfl, rfl, rfl, rfl⟩, rfl⟩

/-- Settles O31, by the reset values of the fields the invariant speaks of. -/
theorem resetMeetsInvariant : Obligations.ResetMeetsInvariant :=
  fun _ _ => coreInv_of_running (Nat.zero_mod _) rfl rfl (by simp [State.resetWith]) rfl

end Sys2Proof.Machine
end

section
/-! States with the same pending bits (rule R24): what differs below the fill is never read, so every update and every command
takes them to equal states or to such states again. -/

namespace Sys2Proof.Machine

/-! ## The same pending bits -/

/-- Assembled bytes agree exactly when the arrived bits do (rule R100). -/
theorem assemble_eq_iff (a b : Byte) (k : Nat) (hk : k ≤ 8) :
    assemble a k = assemble b k ↔ ∀ i < k, a.getLsbD (stagePos i) = b.getLsbD (stagePos i) := by
  constructor
  · intro h i hi
    have hbit := congrArg (BitVec.getLsbD · (stagePos i)) h
    have hpos : 8 - k ≤ stagePos i := by unfold stagePos; omega
    simpa [getLsbD_assemble, hk, hpos] using hbit
  · intro h
    refine BitVec.eq_of_getLsbD_eq fun j hj => ?_
    rw [getLsbD_assemble a k j hk, getLsbD_assemble b k j hk]
    by_cases hjk : 8 - k ≤ j
    · have hstage : stagePos (7 - j) = j := by unfold stagePos; omega
      have hbit := h (7 - j) (by omega)
      rw [hstage] at hbit
      rw [hbit]
    · rw [decide_eq_false hjk, Bool.false_and, Bool.false_and]

/-- Equal pending bits are equal fill counts and equal assembled bytes (rules R24, R100). -/
theorem pending_eq_iff (s t : State) :
    pending s = pending t ↔ s.cnt = t.cnt ∧ assemble s.acc s.cnt.toNat = assemble t.acc s.cnt.toNat := by
  rw [assemble_eq_iff _ _ _ (cnt_toNat_lt s).le]
  constructor
  · intro h
    have hcnt : s.cnt = t.cnt := BitVec.eq_of_toNat_eq (by simpa [pending] using congrArg List.length h)
    refine ⟨hcnt, fun i hi => ?_⟩
    unfold pending at h
    rw [← hcnt, List.map_inj_left] at h
    exact h i (List.mem_range.2 hi)
  · rintro ⟨hcnt, h⟩
    unfold pending
    rw [← hcnt, List.map_inj_left]
    exact fun i hi => h i (List.mem_range.1 hi)

/-- The state holding another accumulator value. -/
def withAcc (a : Byte) (s : State) : State := { s with acc := a }

/-- States with the same pending bits differ in ACC alone, and not in the byte assembled from it. -/
theorem samePending_iff (s t : State) :
    SamePending s t ↔ ∃ a, t = withAcc a s ∧ assemble a s.cnt.toNat = assemble s.acc s.cnt.toNat := by
  unfold SamePending
  rw [pending_eq_iff]
  constructor
  · rintro ⟨⟨hcnt, hasm⟩, hrest⟩
    refine ⟨t.acc, ?_, hasm.symm⟩
    obtain ⟨⟩ := s
    obtain ⟨⟩ := t
    simp_all [withAcc, clearAccumulator]
  · rintro ⟨a, rfl, hasm⟩
    exact ⟨⟨rfl, hasm.symm⟩, rfl⟩

theorem SamePending.refl (s : State) : SamePending s s := ⟨rfl, rfl⟩

/-- An update that passes ACC and CNT on keeps the relation. -/
theorem samePending_update {s : State} {a : Byte} (hasm : assemble a s.cnt.toNat = assemble s.acc s.cnt.toNat)
    {t : State} (hcnt : t.cnt = s.cnt) (hacc : t.acc = s.acc) : SamePending t (withAcc a t) :=
  (samePending_iff _ _).2 ⟨a, rfl, by rw [hcnt, hacc, hasm]⟩

/-! ## Commands see nothing below the fill -/

@[simp] theorem writesByte_withAcc (i : Instr) (a : Byte) (s : State) :
    writesByte i (withAcc a s) = writesByte i s := by
  cases i <;> rfl

/-- Storing the same bit in the next free stage keeps the assembled bytes equal. -/
theorem assemble_withBit_withAcc (b : Bool) (a : Byte) (s : State)
    (hasm : assemble a s.cnt.toNat = assemble s.acc s.cnt.toNat) :
    assemble (withBit b (withAcc a s)) (s.cnt.toNat + 1) = assemble (withBit b s) (s.cnt.toNat + 1) := by
  have h := assemble_withBit b (withAcc a s)
  rw [assemble_withBit b s, ← hasm]
  exact h

theorem byteOf_withAcc (i : Instr) (a : Byte) (s : State) (hw : writesByte i s = true)
    (hasm : assemble a s.cnt.toNat = assemble s.acc s.cnt.toNat) : byteOf i (withAcc a s) = byteOf i s := by
  have hadd (b : Bool) (hc : s.cnt = 7#3) : assemble (withBit b (withAcc a s)) 8 = assemble (withBit b s) 8 := by
    have h := assemble_withBit_withAcc b a s hasm
    rw [hc] at h
    exact h
  cases i with
  | add b => exact hadd b (by simpa [writesByte] using hw)
  | pix x => exact hadd (thr x s.thresh) (by simpa [writesByte] using hw)
  | flush => exact hasm
  | eor => exact hasm

theorem unwritten_samePending (i : Instr) (a : Byte) (s : State) (hw : writesByte i s = false)
    (hasm : assemble a s.cnt.toNat = assemble s.acc s.cnt.toNat) :
    SamePending (unwritten i s) (unwritten i (withAcc a s)) := by
  have hadd (b : Bool) (hc : s.cnt ≠ 7#3) : assemble (withBit b (withAcc a s)) (s.cnt + 1).toNat =
      assemble (withBit b s) (s.cnt + 1).toNat := by
    rw [cnt_toNat_add_one s hc]
    exact assemble_withBit_withAcc b a s hasm
  rw [samePending_iff]
  cases i with
  | add b => exact ⟨_, rfl, hadd b (by simpa [writesByte] using hw)⟩
  | pix x => exact ⟨_, rfl, hadd (thr x s.thresh) (by simpa [writesByte] using hw)⟩
  | flush => exact ⟨a, rfl, hasm⟩
  | eor => exact ⟨a, rfl, hasm⟩

/-! ## Outcomes that cannot be told apart -/

/-- Both go on in states with the same pending bits, or both stop with the same fault. -/
def SameOutcome (o o' : StepOutcome) : Prop :=
  (∃ t t', o = .next t ∧ o' = .next t' ∧ SamePending t t') ∨ ∃ r, o = .fault r ∧ o' = .fault r

theorem sameOutcome_next {o o' : StepOutcome} {t t' : State} (h : o = .next t) (h' : o' = .next t')
    (hst : SamePending t t') : SameOutcome o o' :=
  .inl ⟨t, t', h, h', hst⟩

theorem exec_sameOutcome (i : Instr) (a : Byte) (s : State)
    (hasm : assemble a s.cnt.toNat = assemble s.acc s.cnt.toNat) :
    SameOutcome (exec i s) (exec i (withAcc a s)) := by
  cases hf : s.fault with
  | true => exact sameOutcome_next (exec_faulted i s hf) (exec_faulted i _ hf) (samePending_update hasm rfl rfl)
  | false =>
    cases hw : writesByte i s with
    | false =>
      exact sameOutcome_next (exec_unwritten i s hf hw) (exec_unwritten i _ hf (by simpa using hw))
        (unwritten_samePending i a s hw hasm)
    | true =>
      have hw' : writesByte i (withAcc a s) = true := by simpa using hw
      have hbyte := byteOf_withAcc i a s hw hasm
      rcases hr : s.snkResp with _ | (_ | _)
      · exact .inr ⟨_, exec_writes_silent i s hf hw hr, exec_writes_silent i _ hf hw' hr⟩
      · refine sameOutcome_next (exec_writes_ok i s hf hw hr) (exec_writes_ok i _ hf hw' hr) ?_
        rw [hbyte]
        exact .refl (emitted _ s)
      · refine sameOutcome_next (exec_writes_fail i s hf hw hr) (exec_writes_fail i _ hf hw' hr) ?_
        rw [hbyte]
        exact .refl (emitFailed _ s)

/-- Rejecting a word discards the accumulator or, in a fault state, leaves it as it is (rules R146, R149). -/
theorem rejectWord_sameOutcome (c : FCause) (a : Byte) (s : State)
    (hasm : assemble a s.cnt.toNat = assemble s.acc s.cnt.toNat) :
    SameOutcome (rejectWord c s) (rejectWord c (withAcc a s)) := by
  cases hf : s.fault with
  | true =>
    exact sameOutcome_next (rejectWord_faulted c s hf) (rejectWord_faulted c _ hf) (samePending_update hasm rfl rfl)
  | false =>
    exact sameOutcome_next (rejectWord_running c s hf) (rejectWord_running c _ hf)
      (.refl (raiseFault c { s with snkOut := none }))

theorem presentWord_sameOutcome (w : Word) (a : Byte) (s : State)
    (hasm : assemble a s.cnt.toNat = assemble s.acc s.cnt.toNat) :
    SameOutcome (presentWord w s) (presentWord w (withAcc a s)) := by
  cases hd : decode w with
  | command i =>
    rw [presentWord_command w i _ hd, presentWord_command w i _ hd]
    exact exec_sameOutcome i a s hasm
  | illegalBitValue =>
    rw [presentWord_illegal w _ hd, presentWord_illegal w _ hd]
    exact rejectWord_sameOutcome _ a s hasm
  | reserved =>
    rw [presentWord_reserved w _ hd, presentWord_reserved w _ hd]
    exact rejectWord_sameOutcome _ a s hasm

theorem step_sameOutcome (a : Byte) (s : State) (hasm : assemble a s.cnt.toNat = assemble s.acc s.cnt.toNat) :
    SameOutcome (step s) (step (withAcc a s)) := by
  rcases hi : s.inputs with _ | ⟨p, rest⟩
  · exact sameOutcome_next (step_no_input s hi) (step_no_input _ hi) (samePending_update hasm rfl rfl)
  cases hr : p.rst with
  | true =>
    exact sameOutcome_next (step_reset s p rest hi hr) (step_reset _ p rest hi hr)
      (.refl (assertReset p (takeInput p rest s)))
  | false =>
    cases hv : p.cmdValid with
    | false =>
      exact sameOutcome_next (step_idle s p rest hi hr hv) (step_idle _ p rest hi hr hv)
        (samePending_update hasm rfl rfl)
    | true =>
      rw [step_present s p rest ⟨hi, hr, hv⟩, step_present (withAcc a s) p rest ⟨hi, hr, hv⟩]
      exact presentWord_sameOutcome p.cmd a (takeInput p rest s) hasm

/-! ## The obligation -/

/-- Settles O35: such states differ in ACC alone, which no output shows, and a step reads of it only the assembled bits. -/
theorem samePendingBitsAreIndistinguishable : Obligations.SamePendingBitsAreIndistinguishable := by
  intro s s' h
  obtain ⟨a, rfl, hasm⟩ := (samePending_iff s s').1 h
  exact ⟨rfl, step_sameOutcome a s hasm⟩

end Sys2Proof.Machine
end

section
/-! The shifting implementation of rule R25: while every write is accepted, each command keeps the left-justified ACC equal to
the shifted register and emits the same bytes. -/

namespace Sys2Proof.Machine

/-! ## The encoder's words decode -/

theorem getLsbD_wordOf (op : BitVec 3) (data : Byte) (j : Nat) :
    (wordOf op data).getLsbD j = if j < 8 then data.getLsbD j else op.getLsbD (j - 8) :=
  BitVec.getLsbD_append

@[simp] theorem opField_wordOf (op : BitVec 3) (data : Byte) : opField (wordOf op data) = op := by
  refine BitVec.eq_of_getLsbD_eq fun j hj => ?_
  simp [opField, getLsbD_wordOf, hj]

@[simp] theorem dataField_wordOf (op : BitVec 3) (data : Byte) : dataField (wordOf op data) = data := by
  refine BitVec.eq_of_getLsbD_eq fun j hj => ?_
  simp [dataField, getLsbD_wordOf, hj]

/-- Decoding the word of a command gives the command (rules R72 to R77). -/
theorem decode_encode (i : Instr) : decode (encode i) = .command i := by
  cases i with
  | add b => cases b <;> rfl
  | pix x => simp [decode, encode]
  | flush => rfl
  | eor => rfl

/-! ## The shifting register -/

/-- The register after `b` has been shifted in. -/
def shiftIn (b : Bool) (sr : Byte) : Byte := sr <<< 1 ||| (BitVec.ofBool b).setWidth 8

theorem shiftAdd_last (b : Bool) (a : ShiftAcc) (h : a.n = 7#3) :
    shiftAdd b a = ([shiftIn b a.sr], { sr := shiftIn b a.sr, n := 0#3 }) := if_pos h

theorem shiftAdd_below (b : Bool) (a : ShiftAcc) (h : a.n ≠ 7#3) :
    shiftAdd b a = ([], { sr := shiftIn b a.sr, n := a.n + 1 }) := if_neg h

theorem shiftFlush_empty (a : ShiftAcc) (h : a.n = 0#3) : shiftFlush a = ([], a) := if_pos h

theorem shiftFlush_pending (a : ShiftAcc) (h : a.n ≠ 0#3) :
    shiftFlush a = ([shiftJustified a], { a with n := 0#3 }) := if_neg h

/-- Storing a bit in stage `k` of the justified register is shifting it in and justifying one place less. -/
theorem setBit_justified (sr : Byte) (k : Nat) (b : Bool) (hk : k < 8) :
    setBit (sr <<< (8 - k)) (stagePos k) b = shiftIn b sr <<< (8 - (k + 1)) := by
  refine BitVec.eq_of_getLsbD_eq fun j hj => ?_
  have hpos : stagePos k = 7 - k := rfl
  rw [hpos, getLsbD_setBit _ _ _ _ (by omega), show 8 - (k + 1) = 7 - k by omega]
  obtain hlt | rfl | hgt : j < 7 - k ∨ j = 7 - k ∨ 7 - k < j := by omega
  · simp [hj, hlt, hlt.ne, show j < 8 - k by omega]
  · simp [shiftIn, hj]
  · have hup : ¬ j < 8 - k := by omega
    have hlow : j - (7 - k) - 1 = j - (8 - k) := by omega
    simp [shiftIn, hj, hgt.ne', hgt.not_gt, hup, hlow, show j - (7 - k) ≠ 0 by omega]

/-- The justified register has zeros below its fill. -/
theorem assemble_shiftJustified (a : ShiftAcc) : assemble (shiftJustified a) a.n.toNat = shiftJustified a := by
  rw [assemble_eq_self_iff _ _ a.n.isLt.le, toNat_mod_two_pow_eq_zero_iff]
  intro j hj
  simp [shiftJustified, hj]

/-- ACC is the shifting register, justified, and the fill counts agree (rule R25). -/
def Justified (a : ShiftAcc) (s : State) : Prop := s.cnt = a.n ∧ s.acc = shiftJustified a

theorem Justified.withBit_eq {a : ShiftAcc} {s : State} (h : Justified a s) (b : Bool) :
    withBit b s = shiftIn b a.sr <<< (8 - (s.cnt.toNat + 1)) := by
  obtain ⟨hcnt, hacc⟩ := h
  rw [withBit, hacc, shiftJustified, ← hcnt]
  exact setBit_justified a.sr s.cnt.toNat b (cnt_toNat_lt s)

/-- An emission empties ACC, and nothing of the uncleared register stands in its zero stages. -/
theorem justified_emitted (v : Byte) (s : State) (sr : Byte) : Justified { sr := sr, n := 0#3 } (emitted v s) :=
  ⟨rfl, by simp [shiftJustified]⟩

/-! ## One command on both implementations -/

theorem Justified.shiftCommand_unwritten {a : ShiftAcc} {s : State} (h : Justified a s) (i : Instr)
    (hw : writesByte i s = false) :
    (shiftCommand s.thresh s.rowal i a).1 = [] ∧ Justified (shiftCommand s.thresh s.rowal i a).2 (unwritten i s) := by
  have hcnt : s.cnt = a.n := h.1
  have hadd (b : Bool) (t : State) (hc : s.cnt ≠ 7#3) (htacc : t.acc = withBit b s) (htcnt : t.cnt = s.cnt + 1) :
      (shiftAdd b a).1 = [] ∧ Justified (shiftAdd b a).2 t := by
    rw [shiftAdd_below b a (hcnt ▸ hc)]
    refine ⟨rfl, htcnt.trans (by rw [hcnt]), ?_⟩
    rw [htacc, h.withBit_eq, shiftJustified, ← hcnt, cnt_toNat_add_one s hc]
  cases i with
  | add b => exact hadd b _ (by simpa [writesByte] using hw) rfl rfl
  | pix x => exact hadd (thr x s.thresh) _ (by simpa [writesByte] using hw) rfl rfl
  | flush =>
    have hc : s.cnt = 0#3 := by simpa [writesByte] using hw
    rw [shiftCommand, shiftFlush_empty a (hcnt ▸ hc)]
    exact ⟨rfl, h⟩
  | eor =>
    cases hr : s.rowal with
    | false => exact ⟨rfl, h⟩
    | true =>
      have hc : s.cnt = 0#3 := by simpa [writesByte, hr] using hw
      rw [shiftCommand, if_pos rfl, shiftFlush_empty a (hcnt ▸ hc)]
      exact ⟨rfl, h⟩

theorem Justified.shiftCommand_emitted {a : ShiftAcc} {s : State} (h : Justified a s) (i : Instr)
    (hw : writesByte i s = true) :
    (shiftCommand s.thresh s.rowal i a).1 = [byteOf i s] ∧
      Justified (shiftCommand s.thresh s.rowal i a).2 (emitted (byteOf i s) s) := by
  have ⟨hcnt, hacc⟩ := h
  have hadd (b : Bool) (hc : s.cnt = 7#3) : shiftAdd b a =
      ([assemble (withBit b s) 8], { sr := shiftIn b a.sr, n := 0#3 }) := by
    rw [shiftAdd_last b a (hcnt ▸ hc), assemble_eight, h.withBit_eq, hc]
    simp
  have hflush (hc : s.cnt ≠ 0#3) : shiftFlush a = ([assemble s.acc s.cnt.toNat], { a with n := 0#3 }) := by
    rw [shiftFlush_pending a (hcnt ▸ hc), hacc, hcnt, assemble_shiftJustified]
  cases i with
  | add b =>
    rw [shiftCommand, hadd b (by simpa [writesByte] using hw)]
    exact ⟨rfl, justified_emitted _ s _⟩
  | pix x =>
    rw [shiftCommand, hadd _ (by simpa [writesByte] using hw)]
    exact ⟨rfl, justified_emitted _ s _⟩
  | flush =>
    rw [shiftCommand, hflush (by simpa [writesByte] using hw)]
    exact ⟨rfl, justified_emitted _ s _⟩
  | eor =>
    obtain ⟨hr, hc⟩ : s.rowal = true ∧ s.cnt ≠ 0#3 := by simpa [writesByte] using hw
    rw [shiftCommand, if_pos hr, hflush hc]
    exact ⟨rfl, justified_emitted _ s _⟩

/-- From `s` to `t` the CORE has done what the shifting implementation did in emitting the bytes `one.1` and ending in
`one.2`. -/
structure FollowsShift (s t : State) (one : List Byte × ShiftAcc) : Prop where
  fault : t.fault = false
  out : t.out = s.out ++ one.1
  justified : Justified one.2 t

theorem FollowsShift.append {s u t : State} {one more : List Byte × ShiftAcc} (h : FollowsShift s u one)
    (h' : FollowsShift u t more) : FollowsShift s t (one.1 ++ more.1, more.2) :=
  ⟨h'.fault, by rw [h'.out, h.out, List.append_assoc], h'.justified⟩

theorem exec_followsShift (i : Instr) (s : State) (a : ShiftAcc) (hf : s.fault = false) (hr : s.snkResp = some .ok)
    (h : Justified a s) :
    ∃ t, exec i s = .next t ∧ FollowsShift s t (shiftCommand s.thresh s.rowal i a) := by
  cases hw : writesByte i s with
  | false =>
    obtain ⟨hbytes, hj⟩ := h.shiftCommand_unwritten i hw
    exact ⟨_, exec_unwritten i s hf hw, by simpa using hf, by simp [hbytes], hj⟩
  | true =>
    obtain ⟨hbytes, hj⟩ := h.shiftCommand_emitted i hw
    exact ⟨_, exec_writes_ok i s hf hw hr, hf, by simp [hbytes], hj⟩

/-! ## Command sequences -/

theorem run_followsShift (cmds : List Instr) (s : State) (a : ShiftAcc) (rest : List PortInput)
    (hf : s.fault = false) (h : Justified a s)
    (hi : s.inputs = presented (cmds.map fun i => (i, some .ok)) ++ rest) :
    ∃ t, runSteps cmds.length s = .next t ∧ t.inputs = rest ∧
      FollowsShift s t (shiftRun s.thresh s.rowal cmds a) := by
  induction cmds generalizing s a with
  | nil => exact ⟨s, rfl, hi, hf, (List.append_nil _).symm, h⟩
  | cons i more ih =>
    obtain ⟨u, hexec, hu⟩ := exec_followsShift i
      { s with inputs := presented (more.map fun i => (i, some .ok)) ++ rest, snkResp := some .ok } a hf rfl h
    obtain ⟨hthresh, hrowal, hinputs, -, -⟩ := exec_keeps_configuration i _ u hexec
    have hstep : step s = .next u := (step_commandInput s i _ _ _ hi (decode_encode i)).trans hexec
    obtain ⟨t, hrun, hrest, ht⟩ := ih u _ hu.fault hu.justified hinputs
    rw [hthresh, hrowal] at ht
    have hu' : FollowsShift s u (shiftCommand s.thresh s.rowal i a) := ⟨hu.fault, hu.out, hu.justified⟩
    exact ⟨t, (run_succ_of_next _ s u hstep).trans hrun, hrest, hu'.append ht⟩

/-! ## The obligation -/

/-- Settles O36, by induction on the commands: each keeps ACC the justified shifting register and emits its bytes. -/
theorem shiftRegisterEmitsSameBytes : Obligations.ShiftRegisterEmitsSameBytes := by
  intro cmds s sr rest hf hacc hi
  obtain ⟨t, hrun, hrest, hfault, hout, hcnt, hacc'⟩ :=
    run_followsShift cmds s { sr := sr, n := s.cnt } rest hf ⟨rfl, hacc⟩ hi
  exact ⟨t, hrun, hfault, hrest, hout, hcnt, hacc'⟩

end Sys2Proof.Machine
end

section
/-! The stream of bits: OUT read most significant bit first, then the pending bits (rules R53, R54). Every command that
completes appends its own bits to it (rule R112). -/

namespace Sys2Proof.Machine

/-! ## The leading bits of a byte -/

/-- The bits in the first `k` stages of `v`, in arrival order (rules R10, R53). -/
def leadingBits (v : Byte) (k : Nat) : List Bool := (List.range k).map fun i => v.getLsbD (stagePos i)

theorem pending_eq_leadingBits (s : State) : pending s = leadingBits s.acc s.cnt.toNat := rfl

theorem bitsOf_eq_flatMap (bytes : List Byte) : bitsOf bytes = bytes.flatMap (leadingBits · 8) := rfl

@[simp] theorem length_leadingBits (v : Byte) (k : Nat) : (leadingBits v k).length = k := by simp [leadingBits]

theorem getElem?_leadingBits (v : Byte) (k i : Nat) (hi : i < k) :
    (leadingBits v k)[i]? = some (v.getLsbD (stagePos i)) := by
  simp [leadingBits, hi]

/-- Storing `b` in stage `k` appends it to the bits of the stages before. -/
theorem leadingBits_setBit_next (v : Byte) (k : Nat) (b : Bool) (hk : k < 8) :
    leadingBits (setBit v (stagePos k) b) (k + 1) = leadingBits v k ++ [b] := by
  have hpos : stagePos k < 8 := by unfold stagePos; omega
  have hbefore : ∀ i < k, stagePos i ≠ stagePos k := by unfold stagePos; omega
  simp only [leadingBits, List.range_succ, List.map_append, List.map_singleton, getLsbD_setBit _ _ _ _ hpos, if_true]
  refine congrArg (· ++ [b]) (List.map_congr_left fun i hi => ?_)
  rw [if_neg (hbefore i (List.mem_range.1 hi))]

/-- The byte assembled from `k` stages is their bits and then zeros (rule R100). -/
theorem leadingBits_assemble (a : Byte) (k : Nat) (hk : k ≤ 8) :
    leadingBits (assemble a k) 8 = leadingBits a k ++ List.replicate (8 - k) false := by
  refine List.ext_getElem (by simp [hk]) fun i hi _ => ?_
  rw [length_leadingBits] at hi
  rw [List.getElem_append]
  simp only [leadingBits, List.getElem_map, List.getElem_range, List.getElem_replicate, getLsbD_assemble a k _ hk,
    List.length_map, List.length_range, stagePos]
  split
  · rw [decide_eq_true (by omega), Bool.true_and]
  · rw [decide_eq_false (by omega), Bool.false_and]

@[simp] theorem bitsOf_append (a b : List Byte) : bitsOf (a ++ b) = bitsOf a ++ bitsOf b := List.flatMap_append

@[simp] theorem bitsOf_nil : bitsOf [] = [] := rfl

@[simp] theorem bitsOf_singleton (v : Byte) : bitsOf [v] = leadingBits v 8 := List.flatMap_singleton _ v

@[simp] theorem length_bitsOf (bytes : List Byte) : (bitsOf bytes).length = 8 * bytes.length := by
  simp [bitsOf_eq_flatMap, mul_comm]

/-! ## Padding zeros -/

/-- The zeros that fill up the last byte of `n` bits (rules R57, R109). -/
def padding (n : Nat) : List Bool := List.replicate (8 * bytesFor n - n) false

theorem le_eight_mul_bytesFor (n : Nat) : n ≤ 8 * bytesFor n := by unfold bytesFor; omega

theorem add_length_padding (n : Nat) : n + (padding n).length = 8 * bytesFor n := by
  rw [padding, List.length_replicate, Nat.add_sub_cancel' (le_eight_mul_bytesFor n)]

theorem eight_mul_bytesFor_sub_lt (n : Nat) : 8 * bytesFor n - n < 8 := by unfold bytesFor; omega

/-- Whole bytes before them do not change how many zeros fill up the last byte. -/
theorem padding_mod (n : Nat) : padding (n % 8) = padding n := by
  unfold padding bytesFor
  congr 1
  omega

theorem padding_add_of_whole (m n : Nat) (hm : m % 8 = 0) : padding (m + n) = padding n := by
  rw [← padding_mod (m + n), Nat.add_mod, hm, Nat.zero_add, Nat.mod_mod, padding_mod]

@[simp] theorem padding_zero : padding 0 = [] := rfl

theorem padding_of_pending (k : Nat) (h0 : k ≠ 0) (h8 : k < 8) : padding k = List.replicate (8 - k) false := by
  unfold padding bytesFor
  congr 1
  omega

/-! ## What a command appends -/

/-- The bits a completed command appends to a stream of `n` bits: its bit, the padding zeros of the byte it emits, or
nothing (rule R112). -/
def appendedBits (thresh : Byte) (rowal : Bool) (i : Instr) (n : Nat) : List Bool :=
  match i with
  | .add b => [b]
  | .pix x => [thr x thresh]
  | .flush => padding n
  | .eor => if rowal then padding n else []

/-- Whole bytes at the start of the stream do not change what a command appends. -/
theorem appendedBits_mod (thresh : Byte) (rowal : Bool) (i : Instr) (n : Nat) :
    appendedBits thresh rowal i (n % 8) = appendedBits thresh rowal i n := by
  cases i with
  | add b => rfl
  | pix x => rfl
  | flush => exact padding_mod n
  | eor => rw [appendedBits, padding_mod]; rfl

/-- OUT and then the pending bits, as one bit sequence. -/
def bitStream (s : State) : List Bool := bitsOf s.out ++ pending s

theorem length_bitStream (s : State) : (bitStream s).length = 8 * s.out.length + s.cnt.toNat := by
  simp [bitStream, pending_eq_leadingBits]

/-- The pending bits are those of the stream beyond its whole bytes. -/
theorem length_bitStream_mod (s : State) : (bitStream s).length % 8 = s.cnt.toNat := by
  have := cnt_toNat_lt s
  rw [length_bitStream]
  omega

/-- With nothing pending the stream is OUT alone. -/
theorem bitStream_of_empty (s : State) (h : s.cnt = 0#3) : bitStream s = bitsOf s.out := by
  simp [bitStream, pending, h]

theorem leadingBits_withBit (b : Bool) (s : State) :
    leadingBits (withBit b s) (s.cnt.toNat + 1) = pending s ++ [b] :=
  leadingBits_setBit_next s.acc s.cnt.toNat b (cnt_toNat_lt s)

/-- Below the last stage the stored bit is pending after the others (rule R103). -/
theorem pending_of_withBit {s t : State} (b : Bool) (h7 : s.cnt ≠ 7#3) (hacc : t.acc = withBit b s)
    (hcnt : t.cnt = s.cnt + 1) : pending t = pending s ++ [b] := by
  rw [pending_eq_leadingBits, hacc, hcnt, cnt_toNat_add_one s h7, leadingBits_withBit]

/-- A command that presents no byte leaves its bits pending. -/
theorem pending_unwritten (i : Instr) (s : State) (hw : writesByte i s = false) :
    pending (unwritten i s) = pending s ++ appendedBits s.thresh s.rowal i s.cnt.toNat := by
  cases i with
  | add b => exact pending_of_withBit b (by simpa [writesByte] using hw) rfl rfl
  | pix x => exact pending_of_withBit (thr x s.thresh) (by simpa [writesByte] using hw) rfl rfl
  | flush =>
    have hc : s.cnt = 0#3 := by simpa [writesByte] using hw
    simp [appendedBits, hc, pending, unwritten]
  | eor =>
    cases hr : s.rowal with
    | false => simp [appendedBits, pending, unwritten]
    | true =>
      have hc : s.cnt = 0#3 := by simpa [writesByte, hr] using hw
      simp [appendedBits, hc, pending, unwritten]

/-- The byte a command presents is the pending bits and then the command's own. -/
theorem leadingBits_byteOf (i : Instr) (s : State) (hw : writesByte i s = true) :
    leadingBits (byteOf i s) 8 = pending s ++ appendedBits s.thresh s.rowal i s.cnt.toNat := by
  have hadd (b : Bool) (hc : s.cnt = 7#3) : leadingBits (assemble (withBit b s) 8) 8 = pending s ++ [b] := by
    have h := leadingBits_withBit b s
    rw [hc] at h
    rw [assemble_eight]
    exact h
  have hflush (hc : s.cnt ≠ 0#3) : leadingBits (assemble s.acc s.cnt.toNat) 8 = pending s ++ padding s.cnt.toNat := by
    rw [leadingBits_assemble _ _ (cnt_toNat_lt s).le, pending_eq_leadingBits,
      padding_of_pending _ (by simpa [BitVec.toNat_eq] using hc) (cnt_toNat_lt s)]
  cases i with
  | add b => exact hadd b (by simpa [writesByte] using hw)
  | pix x => exact hadd (thr x s.thresh) (by simpa [writesByte] using hw)
  | flush => exact hflush (by simpa [writesByte] using hw)
  | eor =>
    obtain ⟨hr, hc⟩ : s.rowal = true ∧ s.cnt ≠ 0#3 := by simpa [writesByte] using hw
    rw [hr]
    exact hflush hc

theorem exec_appends_bits (i : Instr) (s t : State) (hf : s.fault = false) (he : exec i s = .next t)
    (ht : t.fault = false) :
    bitStream t = bitStream s ++ appendedBits s.thresh s.rowal i s.cnt.toNat := by
  obtain ⟨hf', -⟩ | ⟨-, hw, rfl⟩ | ⟨-, hw, -, rfl⟩ | ⟨-, -, -, rfl⟩ := exec_next_cases i s t he
  · simp [hf] at hf'
  · rw [bitStream, unwritten_out, pending_unwritten i s hw, ← List.append_assoc, bitStream]
  · rw [bitStream_of_empty _ rfl, emitted_out, bitsOf_append, bitsOf_singleton, leadingBits_byteOf i s hw,
      ← List.append_assoc, bitStream]
  · simp at ht

/-- The padding of the pending bits, in the form of rule R112. -/
theorem padding_cnt (s : State) :
    padding s.cnt.toNat = if s.cnt = 0#3 then [] else List.replicate (8 - s.cnt.toNat) false := by
  split
  next hc => rw [hc]; rfl
  next hc => exact padding_of_pending _ (by simpa [BitVec.toNat_eq] using hc) (cnt_toNat_lt s)

/-! ## The obligation -/

/-- Settles O34: what every command appends to the stream of bits, with the padding zeros counted by CNT. -/
theorem commandsAppendBitsInOrder : Obligations.CommandsAppendBitsInOrder := by
  intro s t i hf he ht
  refine (exec_appends_bits i s t hf he ht).trans (congrArg (bitStream s ++ ·) ?_)
  cases i with
  | add b => rfl
  | pix x => rfl
  | flush => exact padding_cnt s
  | eor => cases hr : s.rowal <;> simp [appendedBits, padding_cnt]

end Sys2Proof.Machine
end

section
/-! The packing function read back as bits (rules R57, R109). -/

namespace Sys2Proof.Machine

/-- A concatenation of blocks of one length `n`, by block and position in the block. -/
theorem getElem?_flatMap_blocks {α β : Type} (l : List α) (f : α → List β) (n r c : Nat)
    (hlen : ∀ x ∈ l, (f x).length = n) (hc : c < n) :
    (l.flatMap f)[n * r + c]? = l[r]?.bind fun x => (f x)[c]? := by
  induction l generalizing r with
  | nil => simp
  | cons x rest ih =>
    obtain ⟨hx, hrest⟩ := List.forall_mem_cons.1 hlen
    rw [List.flatMap_cons]
    cases r with
    | zero => simp [List.getElem?_append_left, hx, hc]
    | succ r =>
      rw [List.getElem?_append_right (by rw [hx, Nat.mul_succ]; omega), hx,
        show n * (r + 1) + c - n = n * r + c by rw [Nat.mul_succ]; omega, ih r hrest, List.getElem?_cons_succ]

/-- Bit `m` of a byte sequence is bit `7 - (m mod 8)` of byte `m div 8` (rules R53, R57). -/
theorem getElem?_bitsOf (bytes : List Byte) (m : Nat) :
    (bitsOf bytes)[m]? = bytes[m / 8]?.map fun v => v.getLsbD (stagePos (m % 8)) := by
  have hm : m % 8 < 8 := Nat.mod_lt _ (by decide)
  have h := getElem?_flatMap_blocks bytes (leadingBits · 8) 8 (m / 8) (m % 8) (fun _ _ => length_leadingBits _ 8) hm
  rw [Nat.div_add_mod, ← bitsOf_eq_flatMap] at h
  rw [h, Option.map_eq_bind]
  exact congrArg _ (funext fun v => getElem?_leadingBits v 8 _ hm)

/-- The number with the `n` binary digits `f 0`, …, `f (n - 1)`, the most significant first, as rule R109 sums it. -/
def digitSum (f : Nat → Bool) (n : Nat) : Nat := ((List.range n).map fun i => (f i).toNat * 2 ^ (n - 1 - i)).sum

/-- A further digit doubles the number and is its lowest bit. -/
theorem digitSum_succ (f : Nat → Bool) (n : Nat) : digitSum f (n + 1) = Nat.bit (f n) (digitSum f n) := by
  have hdouble : ∀ i ∈ List.range n, (f i).toNat * 2 ^ (n - i) = 2 * ((f i).toNat * 2 ^ (n - 1 - i)) := by
    intro i hi
    have := List.mem_range.1 hi
    rw [show n - i = n - 1 - i + 1 by omega, pow_succ]
    ring
  rw [Nat.bit_val, digitSum, digitSum, ← List.sum_map_mul_left, ← List.map_congr_left hdouble]
  simp [List.range_succ]

theorem testBit_digitSum (f : Nat → Bool) (n i : Nat) (hi : i < n) : (digitSum f n).testBit (n - 1 - i) = f i := by
  induction n with
  | zero => omega
  | succ n ih =>
    rw [digitSum_succ]
    obtain rfl | hlt : i = n ∨ i < n := by omega
    · simp
    · rw [show n + 1 - 1 - i = n - 1 - i + 1 by omega, Nat.testBit_bit_succ, ih hlt]

/-- Stage `i` of byte `j` of the packed bits holds bit `8j + i`, a missing bit being 0 (rule R109). -/
theorem getLsbD_packByte (bits : List Bool) (j i : Nat) (hi : i < 8) :
    (packByte bits j).getLsbD (stagePos i) = bits.getD (8 * j + i) false := by
  have hpos : stagePos i < 8 := by unfold stagePos; omega
  have hbit := testBit_digitSum (fun i => bits.getD (8 * j + i) false) 8 i hi
  rw [packByte, BitVec.getLsbD_ofNat, decide_eq_true hpos, Bool.true_and]
  exact hbit

@[simp] theorem length_pack (bits : List Bool) : (pack bits).length = bytesFor bits.length := by simp [pack]

/-- The packed bits are the bits themselves and then the padding zeros. -/
theorem bitsOf_pack (bits : List Bool) : bitsOf (pack bits) = bits ++ padding bits.length := by
  refine List.ext_getElem? fun m => ?_
  have hle := le_eight_mul_bytesFor bits.length
  rw [getElem?_bitsOf, pack, List.getElem?_map, padding, List.getElem?_append, List.getElem?_replicate]
  by_cases hm : m < 8 * bytesFor bits.length
  · rw [List.getElem?_range (by omega), Option.map_some, Option.map_some,
      getLsbD_packByte _ _ _ (Nat.mod_lt _ (by decide)), Nat.div_add_mod, List.getD_eq_getElem?_getD]
    by_cases hb : m < bits.length
    · simp [hb]
    · simp [hb, show m - bits.length < 8 * bytesFor bits.length - bits.length by omega]
  · rw [List.getElem?_eq_none (by simp; omega), if_neg (by omega), if_neg (by omega)]
    rfl

/-- Settles O38: each packed byte read back by its stages. -/
theorem packedBitsArePaddedWithZeros : Obligations.PackedBitsArePaddedWithZeros :=
  fun bits => ⟨bitsOf_pack bits, eight_mul_bytesFor_sub_lt bits.length⟩

end Sys2Proof.Machine
end

section
/-! The stream of bits along a run with every write accepted, and where the grid's bits stand in it (rules R57, R126). -/

namespace Sys2Proof.Machine

/-! ## Runs -/

/-- The stream of bits after these commands, every write accepted. -/
def streamAfter (thresh : Byte) (rowal : Bool) (cmds : List Instr) (bits : List Bool) : List Bool :=
  cmds.foldl (fun bits i => bits ++ appendedBits thresh rowal i bits.length) bits

theorem exec_accepted_appends_bits (i : Instr) (s : State) (hf : s.fault = false) (hr : s.snkResp = some .ok) :
    ∃ t, exec i s = .next t ∧ t.fault = false ∧
      bitStream t = bitStream s ++ appendedBits s.thresh s.rowal i (bitStream s).length := by
  obtain ⟨t, he⟩ := exec_answers_next i s fun _ _ => by simp [hr]
  have ht : t.fault = false := (exec_keeps_faultRegisters i s t he (by simp [hr])).1.trans hf
  refine ⟨t, he, ht, ?_⟩
  rw [exec_appends_bits i s t hf he ht, ← length_bitStream_mod s, appendedBits_mod]

/-- A command list with every write accepted runs to its end and appends the bits of its commands. -/
theorem run_appends_bits (cmds : List Instr) (s : State) (rest : List PortInput) (hf : s.fault = false)
    (hi : s.inputs = presented (cmds.map fun i => (i, some .ok)) ++ rest) :
    ∃ t, runSteps cmds.length s = .next t ∧ t.inputs = rest ∧ t.fault = false ∧ t.thresh = s.thresh ∧
      t.rowal = s.rowal ∧ bitStream t = streamAfter s.thresh s.rowal cmds (bitStream s) := by
  induction cmds generalizing s with
  | nil => exact ⟨s, rfl, hi, hf, rfl, rfl, rfl⟩
  | cons i more ih =>
    obtain ⟨u, hexec, hu, hbits⟩ := exec_accepted_appends_bits i
      { s with inputs := presented (more.map fun i => (i, some .ok)) ++ rest, snkResp := some .ok } hf rfl
    obtain ⟨hthresh, hrowal, hinputs, -, -⟩ := exec_keeps_configuration i _ u hexec
    have hstep : step s = .next u := (step_commandInput s i _ _ _ hi (decode_encode i)).trans hexec
    obtain ⟨t, hrun, hrest, hfault, hthresh', hrowal', ht⟩ := ih u hu hinputs
    refine ⟨t, (run_succ_of_next _ s u hstep).trans hrun, hrest, hfault, hthresh'.trans hthresh,
      hrowal'.trans hrowal, ht.trans ?_⟩
    rw [hthresh, hrowal, hbits]
    rfl

/-! ## The stream of a grid -/

theorem streamAfter_append (thresh : Byte) (rowal : Bool) (a b : List Instr) (bits : List Bool) :
    streamAfter thresh rowal (a ++ b) bits = streamAfter thresh rowal b (streamAfter thresh rowal a bits) :=
  List.foldl_append

theorem streamAfter_singleton (thresh : Byte) (rowal : Bool) (i : Instr) (bits : List Bool) :
    streamAfter thresh rowal [i] bits = bits ++ appendedBits thresh rowal i bits.length := rfl

@[simp] theorem length_rowBits (g : Grid) (thresh : Byte) (w r : Nat) : (rowBits g thresh w r).length = w := by
  simp [rowBits]

theorem streamAfter_pixels (g : Grid) (thresh : Byte) (rowal : Bool) (r : Nat) (cols : List Nat) (bits : List Bool) :
    streamAfter thresh rowal (cols.map fun c => .pix (g r c)) bits = bits ++ cols.map (pixelBit g thresh r) := by
  induction cols generalizing bits with
  | nil => simp [streamAfter]
  | cons c rest ih => simpa [streamAfter, appendedBits, pixelBit] using ih (bits ++ [pixelBit g thresh r c])

/-- The bits of one row in the stream: in row-aligned mode EOR pads them to whole bytes (rules R121, R127). -/
def rowStream (rowal : Bool) (g : Grid) (thresh : Byte) (w r : Nat) : List Bool :=
  rowBits g thresh w r ++ if rowal then padding w else []

/-- The bits of all rows in the stream (rules R127, R128). -/
def gridStream (rowal : Bool) (g : Grid) (thresh : Byte) (w h : Nat) : List Bool :=
  (List.range h).flatMap (rowStream rowal g thresh w)

/-- How many bits of the stream one row takes. -/
def rowStride (rowal : Bool) (w : Nat) : Nat := if rowal then 8 * bytesFor w else w

theorem le_rowStride (rowal : Bool) (w : Nat) : w ≤ rowStride rowal w := by
  cases rowal with
  | false => exact le_rfl
  | true => exact le_eight_mul_bytesFor w

@[simp] theorem length_rowStream (rowal : Bool) (g : Grid) (thresh : Byte) (w r : Nat) :
    (rowStream rowal g thresh w r).length = rowStride rowal w := by
  cases rowal with
  | false => simp [rowStream, rowStride]
  | true => simp [rowStream, rowStride, add_length_padding]

theorem gridStream_succ (rowal : Bool) (g : Grid) (thresh : Byte) (w h : Nat) :
    gridStream rowal g thresh w (h + 1) = gridStream rowal g thresh w h ++ rowStream rowal g thresh w h := by
  simp [gridStream, List.range_succ]

theorem length_gridStream (rowal : Bool) (g : Grid) (thresh : Byte) (w h : Nat) :
    (gridStream rowal g thresh w h).length = h * rowStride rowal w := by
  simp [gridStream]

/-- One row's commands append the row, in row-aligned mode from a byte boundary. -/
theorem streamAfter_driveRow (g : Grid) (thresh : Byte) (rowal : Bool) (w r : Nat) (bits : List Bool)
    (hb : rowal = true → bits.length % 8 = 0) :
    streamAfter thresh rowal (driveRow g w r) bits = bits ++ rowStream rowal g thresh w r := by
  have hpad : appendedBits thresh rowal .eor (bits ++ rowBits g thresh w r).length = if rowal then padding w else [] := by
    rw [List.length_append, length_rowBits]
    cases rowal with
    | false => rfl
    | true => exact padding_add_of_whole _ w (hb rfl)
  rw [driveRow, streamAfter_append, streamAfter_singleton, streamAfter_pixels, ← rowBits, hpad, List.append_assoc]
  rfl

/-- The rows' commands append the rows, in row-aligned mode from a byte boundary. -/
theorem streamAfter_driveRows (g : Grid) (thresh : Byte) (rowal : Bool) (w h : Nat) (bits : List Bool)
    (hb : rowal = true → bits.length % 8 = 0) :
    streamAfter thresh rowal ((List.range h).flatMap (driveRow g w)) bits = bits ++ gridStream rowal g thresh w h := by
  induction h with
  | zero => simp [streamAfter, gridStream]
  | succ h ih =>
    have hrow : rowal = true → (bits ++ gridStream rowal g thresh w h).length % 8 = 0 := by
      intro hr
      have hstride : (gridStream rowal g thresh w h).length = 8 * (h * bytesFor w) := by
        rw [length_gridStream, rowStride, if_pos hr, Nat.mul_left_comm]
      rw [List.length_append, hstride, Nat.add_mul_mod_self_left, hb hr]
    rw [List.range_succ, List.flatMap_append, List.flatMap_singleton, streamAfter_append, ih,
      streamAfter_driveRow _ _ _ _ _ _ hrow, gridStream_succ, List.append_assoc]

/-- The grid's commands from an empty running state: every row, the padding of the final FLUSH, and nothing pending. -/
theorem run_drive (g : Grid) (w h : Nat) (s : State) (hf : s.fault = false) (hc : s.cnt = 0#3)
    (hi : s.inputs = presented ((drive g w h).map fun i => (i, some .ok))) :
    ∃ t, runSteps (drive g w h).length s = .next t ∧ CleanEnd t ∧
      bitsOf t.out = bitsOf s.out ++ gridStream s.rowal g s.thresh w h ++
        padding (gridStream s.rowal g s.thresh w h).length := by
  obtain ⟨t, hrun, hin, hft, -, -, hbits⟩ := run_appends_bits (drive g w h) s [] hf (hi.trans (List.append_nil _).symm)
  have hwhole : (bitsOf s.out).length % 8 = 0 := by rw [length_bitsOf, Nat.mul_mod_right]
  rw [bitStream_of_empty s hc, drive, streamAfter_append, streamAfter_driveRows _ _ _ _ _ _ fun _ => hwhole,
    streamAfter_singleton, List.length_append, appendedBits, padding_add_of_whole _ _ hwhole] at hbits
  have hct : t.cnt = 0#3 := by
    have hlen := length_bitStream_mod t
    rw [hbits, List.length_append, List.length_append, Nat.add_assoc, add_length_padding, Nat.add_mod, hwhole,
      Nat.mul_mod_right] at hlen
    exact BitVec.eq_of_toNat_eq hlen.symm
  exact ⟨t, hrun, ⟨hin, hft, hct⟩, (bitStream_of_empty t hct).symm.trans hbits⟩

/-! ## The position of a pixel -/

/-- The bit of pixel (`r`, `c`) is the `c`th of its row, which the rows before precede. -/
theorem getElem?_gridStream (rowal : Bool) (g : Grid) (thresh : Byte) (w h r c : Nat) (hr : r < h) (hc : c < w) :
    (gridStream rowal g thresh w h)[rowStride rowal w * r + c]? = some (pixelBit g thresh r c) := by
  rw [gridStream, getElem?_flatMap_blocks _ _ _ _ _ (fun r _ => length_rowStream rowal g thresh w r)
      (hc.trans_le (le_rowStride rowal w)), List.getElem?_range hr, Option.bind_some, rowStream,
    List.getElem?_append_left (by simpa using hc)]
  simp [rowBits, hc]

theorem readByte_of_getElem?_bitsOf (t : State) (m : Nat) (b : Bool) (h : (bitsOf t.out)[m]? = some b) :
    ∃ v, readByte t (m / 8) = some v ∧ v.getLsbD (7 - m % 8) = b := by
  rw [getElem?_bitsOf, Option.map_eq_some_iff] at h
  exact h

/-- Settles O46: the grid's run leaves its stream in OUT, in which a row takes `W` bits or `8·ceil(W/8)`. -/
theorem pixelStandsAtItsPosition : Obligations.PixelStandsAtItsPosition := by
  intro g w h r c s hr hc hf hcnt hout hi
  obtain ⟨t, hrun, -, hbits⟩ := run_drive g w h s hf hcnt hi
  have hpixel := getElem?_gridStream s.rowal g s.thresh w h r c hr hc
  have hstands : (bitsOf t.out)[rowStride s.rowal w * r + c]? = some (thr (g r c) s.thresh) := by
    rw [hbits, hout, bitsOf_nil, List.nil_append, List.getElem?_append_left (List.getElem?_eq_some_iff.1 hpixel).1]
    exact hpixel
  obtain ⟨v, hread, hbit⟩ := readByte_of_getElem?_bitsOf t _ _ hstands
  refine ⟨t, v, hrun, fun hrow => ?_, fun hrow => ?_⟩
  · rw [hrow, rowStride, if_neg Bool.false_ne_true, mul_comm] at hread hbit
    exact ⟨hread, hbit⟩
  · rw [hrow, rowStride, if_pos rfl, mul_assoc, mul_comm (bytesFor w)] at hread hbit
    rw [Nat.mul_add_div (by decide)] at hread
    rw [Nat.mul_add_mod] at hbit
    exact ⟨hread, hbit⟩

end Sys2Proof.Machine
end

section
/-! The encoding of the four commands (rules R70 to R79): a word is its two fields, the decoder inverts the encoder, and
the decoder as a function of the word's number. -/

namespace Sys2Proof.Machine

/-! ## A word is its two fields -/

theorem wordOf_fields (w : Word) : wordOf (opField w) (dataField w) = w :=
  (BitVec.extractLsb'_append_extractLsb'_eq_extractLsb' rfl).trans BitVec.extractLsb'_eq_self

theorem wordOf_eq_iff (op : BitVec 3) (data : Byte) (w : Word) :
    wordOf op data = w ↔ opField w = op ∧ dataField w = data := by
  constructor
  · rintro rfl
    exact ⟨opField_wordOf op data, dataField_wordOf op data⟩
  · rintro ⟨rfl, rfl⟩
    exact wordOf_fields w

theorem toNat_wordOf (op : BitVec 3) (data : Byte) : (wordOf op data).toNat = 256 * op.toNat + data.toNat := by
  rw [wordOf, BitVec.toNat_append, ← Nat.shiftLeft_add_eq_or_of_lt data.isLt, Nat.shiftLeft_eq, mul_comm]

/-- The number of a word from its fields (rule R70). -/
theorem toNat_word (w : Word) : w.toNat = 256 * (opField w).toNat + (dataField w).toNat := by
  rw [← toNat_wordOf, wordOf_fields]

/-! ## The decoder inverts the encoder -/

theorem decodeAdd_eq_command {data : Byte} {i : Instr} (h : decodeAdd data = .command i) :
    ∃ b : Bool, i = .add b ∧ data = if b then 0x01#8 else 0x00#8 := by
  unfold decodeAdd at h
  split_ifs at h with h0 h1
  · cases h; exact ⟨false, rfl, h0⟩
  · cases h; exact ⟨true, rfl, h1⟩

theorem decodeBare_eq_command {j i : Instr} {data : Byte} (h : decodeBare j data = .command i) :
    i = j ∧ data = 0x00#8 := by
  unfold decodeBare at h
  split_ifs at h with h0
  cases h
  exact ⟨rfl, h0⟩

/-- Only a command's own word decodes to it: each arm of the decoder fixes both fields of the word. -/
theorem encode_of_decode (w : Word) (i : Instr) (h : decode w = .command i) : encode i = w := by
  unfold decode at h
  split_ifs at h with h0 h1 h2 h3
  · obtain ⟨b, rfl, hdata⟩ := decodeAdd_eq_command h
    exact (wordOf_eq_iff _ _ w).2 ⟨h0, hdata⟩
  · cases h
    exact (wordOf_eq_iff _ _ w).2 ⟨h1, rfl⟩
  · obtain ⟨rfl, hdata⟩ := decodeBare_eq_command h
    exact (wordOf_eq_iff _ _ w).2 ⟨h2, hdata⟩
  · obtain ⟨rfl, hdata⟩ := decodeBare_eq_command h
    exact (wordOf_eq_iff _ _ w).2 ⟨h3, hdata⟩

/-- Settles O4: each arm of the decoder fixes the word, and the encoder's words decode. -/
theorem decodeInvertsEncode : Obligations.DecodeInvertsEncode := by
  intro w i
  constructor
  · exact encode_of_decode w i
  · rintro rfl
    exact decode_encode i

/-! ## The decoder by the word's number -/

theorem decode_of_toNat_encode {w : Word} (i : Instr) (h : w.toNat = (encode i).toNat) : decode w = .command i := by
  rw [BitVec.eq_of_toNat_eq h, decode_encode]

/-- Rule R78's words. -/
theorem decode_illegalBitValue (w : Word) (hlo : 2 ≤ w.toNat) (hhi : w.toNat ≤ 0x0FF) :
    decode w = .illegalBitValue := by
  rw [toNat_word] at hlo hhi
  have hop : opField w = 0#3 := BitVec.eq_of_toNat_eq (by simp only [BitVec.toNat_ofNat]; omega)
  have h0 : dataField w ≠ 0x00#8 := fun h => by simp [hop, h] at hlo
  have h1 : dataField w ≠ 0x01#8 := fun h => by simp [hop, h] at hlo
  rw [decode, if_pos hop, decodeAdd, if_neg h0, if_neg h1]

theorem decodeBare_reserved (i : Instr) (data : Byte) (h : data ≠ 0x00#8) : decodeBare i data = .reserved := if_neg h

/-- Rule R79's words. -/
theorem decode_reserved (w : Word) (h : 0x201 ≤ w.toNat ∧ w.toNat ≤ 0x2FF ∨ 0x301 ≤ w.toNat) :
    decode w = .reserved := by
  have hlt := (dataField w).isLt
  rw [toNat_word] at h
  have h0 : opField w ≠ 0#3 := fun h0 => by rw [h0] at h; simp at h; omega
  have h1 : opField w ≠ 1#3 := fun h1 => by rw [h1] at h; simp at h; omega
  rw [decode, if_neg h0, if_neg h1]
  split_ifs with h2 h3
  · exact decodeBare_reserved _ _ fun hdata => by simp [h2, hdata] at h
  · exact decodeBare_reserved _ _ fun hdata => by simp [h3, hdata] at h
  · rfl

/-- PIX's operand is the word's low byte (rules R72, R75). -/
theorem toNat_encode_pix (x : Byte) : (encode (.pix x)).toNat = 256 + x.toNat := toNat_wordOf 1#3 x

/-- The word of PIX by its number (rule R75). -/
theorem decode_pix (w : Word) (hlo : 256 ≤ w.toNat) (hhi : w.toNat < 512) :
    decode w = .command (.pix (BitVec.ofNat 8 (w.toNat - 256))) := by
  refine decode_of_toNat_encode _ ?_
  rw [toNat_encode_pix, BitVec.toNat_ofNat, Nat.mod_eq_of_lt (by omega), Nat.add_sub_of_le hlo]

/-- Rule R73's table: every range of numbers has its one kind of word. -/
theorem decode_eq_by_number (w : Word) : decode w =
    if w.toNat = 0 then .command (.add false)
    else if w.toNat = 1 then .command (.add true)
    else if w.toNat < 256 then .illegalBitValue
    else if w.toNat < 512 then .command (.pix (BitVec.ofNat 8 (w.toNat - 256)))
    else if w.toNat = 512 then .command .flush
    else if w.toNat < 768 then .reserved
    else if w.toNat = 768 then .command .eor
    else .reserved := by
  split_ifs with h0 h1 h256 h512 hflush h768 heor
  · exact decode_of_toNat_encode (.add false) h0
  · exact decode_of_toNat_encode (.add true) h1
  · exact decode_illegalBitValue w (by omega) (by omega)
  · exact decode_pix w (by omega) h512
  · exact decode_of_toNat_encode .flush hflush
  · exact decode_reserved w (by omega)
  · exact decode_of_toNat_encode .eor heor
  · exact decode_reserved w (by omega)

/-! ## Rejected words -/

/-- A refused word takes its fault, whatever the sink would answer, and presents no byte (rules R142, R143, R146). -/
theorem step_rejected (s : State) (p : PortInput) (rest : List PortInput) (c : FCause) (hp : PresentsCommand s p rest)
    (hf : s.fault = false) (hc : presentWord p.cmd (takeInput p rest s) = rejectWord c (takeInput p rest s)) :
    ∃ t, step s = .next t ∧ t.fault = true ∧ t.fcause.code = c.code ∧ t.cmdStatus = some .faulted ∧ t.out = s.out ∧
      t.thresh = s.thresh ∧ t.rowal = s.rowal ∧ t.snkOut = none ∧ sinkContents t = sinkContents s :=
  ⟨raiseFault c { takeInput p rest s with snkOut := none },
    (step_present s p rest hp).trans (hc.trans (rejectWord_running c _ hf)), rfl, rfl, rfl, rfl, rfl, rfl, rfl, rfl⟩

/-- Settles O8: these are the words that the decoder rejects. -/
theorem rejectedWordsTakeTheirFault : Obligations.RejectedWordsTakeTheirFault := by
  intro s p rest hp hf
  constructor
  · rintro ⟨hlo, hhi⟩
    exact step_rejected s p rest .illegalBitValue hp hf (presentWord_illegal _ _ (decode_illegalBitValue p.cmd hlo hhi))
  · intro hw
    exact step_rejected s p rest .reservedCommand hp hf (presentWord_reserved _ _ (decode_reserved p.cmd hw))

/-! ## The words in the order of their numbers -/

/-- What the `len` words from number `base` on decode to. -/
def decodedFrom (base len : Nat) : List Decoded := (List.range' base len).map fun n => decode (BitVec.ofNat 11 n)

theorem decodedFrom_add (base m n : Nat) :
    decodedFrom base (m + n) = decodedFrom base m ++ decodedFrom (base + m) n := by
  rw [decodedFrom, ← List.range'_append_1, List.map_append]; rfl

theorem decodedFrom_eq_replicate {base len : Nat} {d : Decoded} (hbound : base + len ≤ 2048)
    (h : ∀ w : Word, base ≤ w.toNat → w.toNat < base + len → decode w = d) :
    decodedFrom base len = List.replicate len d := by
  refine List.eq_replicate_iff.2 ⟨by simp [decodedFrom], fun e he => ?_⟩
  obtain ⟨n, hn, rfl⟩ := List.mem_map.1 he
  rw [List.mem_range'_1] at hn
  have hword : (BitVec.ofNat 11 n).toNat = n := Nat.mod_eq_of_lt (by omega)
  exact h _ (by omega) (by omega)

theorem decodedFrom_pix : decodedFrom 256 256 = (List.range 256).map fun x => .command (.pix (BitVec.ofNat 8 x)) := by
  rw [decodedFrom, List.range'_eq_map_range, List.map_map]
  refine List.map_congr_left fun x hx => ?_
  rw [List.mem_range] at hx
  have hword : (BitVec.ofNat 11 (256 + x)).toNat = 256 + x := Nat.mod_eq_of_lt (by omega)
  rw [Function.comp_apply, decode_pix _ (by omega) (by omega), hword, Nat.add_sub_cancel_left]

/-- All 2048 words in the order of their numbers (rule R73). -/
theorem decodedFrom_all : decodedFrom 0 2048 =
    [.command (.add false), .command (.add true)] ++ List.replicate 254 .illegalBitValue ++
      ((List.range 256).map fun x => .command (.pix (BitVec.ofNat 8 x))) ++
      [.command .flush] ++ List.replicate 255 .reserved ++ [.command .eor] ++ List.replicate 1279 .reserved := by
  have hillegal : decodedFrom 2 254 = List.replicate 254 .illegalBitValue :=
    decodedFrom_eq_replicate (by decide) fun w hlo hhi => decode_illegalBitValue w hlo (by omega)
  have hreserved : decodedFrom 513 255 = List.replicate 255 .reserved :=
    decodedFrom_eq_replicate (by decide) fun w hlo hhi => decode_reserved w (.inl ⟨hlo, by omega⟩)
  have hreserved' : decodedFrom 769 1279 = List.replicate 1279 .reserved :=
    decodedFrom_eq_replicate (by decide) fun w hlo _ => decode_reserved w (.inr hlo)
  calc decodedFrom 0 2048
    _ = decodedFrom 0 2 ++ decodedFrom 2 254 ++ decodedFrom 256 256 ++ decodedFrom 512 1 ++ decodedFrom 513 255 ++
          decodedFrom 768 1 ++ decodedFrom 769 1279 := by
      rw [← decodedFrom_add, ← decodedFrom_add, ← decodedFrom_add, ← decodedFrom_add, ← decodedFrom_add,
        ← decodedFrom_add]
    _ = _ := by rw [hillegal, decodedFrom_pix, hreserved, hreserved']; rfl

theorem countP_decode (p : Decoded → Bool) :
    ((List.range 2048).countP fun n => p (decode (BitVec.ofNat 11 n))) = (decodedFrom 0 2048).countP p := by
  rw [decodedFrom, List.countP_map, List.range_eq_range']; rfl

/-- Settles O2: the words in the order of their numbers form blocks, in which each kind of word is counted. -/
theorem decoderFollowsOpcodeMap : Obligations.DecoderFollowsOpcodeMap := by
  refine ⟨decode_eq_by_number, (countP_decode fun d => d matches .command (.add _)).trans ?_,
    (countP_decode fun d => d matches .command (.pix _)).trans ?_, (countP_decode (· == .command .flush)).trans ?_,
    (countP_decode (· == .command .eor)).trans ?_, (countP_decode (· == .illegalBitValue)).trans ?_,
    (countP_decode (· == .reserved)).trans ?_⟩
  all_goals simp [-List.reduceReplicate, decodedFrom_all, List.countP_replicate, List.countP_map, Function.comp_def]

end Sys2Proof.Machine
end

section
/-! The rows of the opcode table: a word passes a row's match and mask exactly when it is the word of one of the row's
commands (rules R74 to R77). -/

namespace Sys2Proof.Machine

/-- A mask acts on the two fields of the word separately. -/
theorem and_wordOf_eq_iff (w : Word) (opMask op : BitVec 3) (dataMask data : Byte) :
    w &&& wordOf opMask dataMask = wordOf op data ↔ opField w &&& opMask = op ∧ dataField w &&& dataMask = data := by
  have hand : wordOf (opField w &&& opMask) (dataField w &&& dataMask) = w &&& wordOf opMask dataMask := by
    rw [wordOf, ← BitVec.and_append]
    exact congrArg (· &&& wordOf opMask dataMask) (wordOf_fields w)
  rw [← hand, wordOf_eq_iff, opField_wordOf, dataField_wordOf]
  exact and_congr eq_comm eq_comm

/-- The mask `0x7FF` compares the whole word. -/
theorem and_wholeMask (w : Word) : w &&& 0x7FF#11 = w := BitVec.and_allOnes

theorem and_addMask_iff (w : Word) : w &&& 0x7FE#11 = 0x000#11 ↔ ∃ b, encode (.add b) = w := by
  have hbit : ∀ data : Byte, data &&& 0xFE#8 = 0x00#8 ↔ ∃ b : Bool, data = if b then 0x01#8 else 0x00#8 := by decide
  refine (and_wordOf_eq_iff w 7#3 0#3 0xFE#8 0x00#8).trans ?_
  rw [hbit, show opField w &&& 7#3 = opField w from BitVec.and_allOnes, ← exists_and_left]
  exact exists_congr fun b => (wordOf_eq_iff _ _ w).symm

theorem and_pixMask_iff (w : Word) : w &&& 0x700#11 = 0x100#11 ↔ ∃ x, encode (.pix x) = w := by
  refine (and_wordOf_eq_iff w 7#3 1#3 0x00#8 0x00#8).trans ?_
  rw [show opField w &&& 7#3 = opField w from BitVec.and_allOnes, BitVec.and_zero]
  constructor
  · rintro ⟨hop, -⟩
    exact ⟨dataField w, (wordOf_eq_iff _ _ w).2 ⟨hop, rfl⟩⟩
  · rintro ⟨x, rfl⟩
    exact ⟨opField_wordOf _ _, rfl⟩

theorem and_flushMask_iff (w : Word) : w &&& 0x7FF#11 = 0x200#11 ↔ encode .flush = w := by
  rw [and_wholeMask]; exact eq_comm

theorem and_eorMask_iff (w : Word) : w &&& 0x7FF#11 = 0x300#11 ↔ encode .eor = w := by
  rw [and_wholeMask]; exact eq_comm

/-- The table written apart from the decoder selects exactly the words of the encoder. -/
theorem wordWf_iff_encode (w : Word) : wordWf w = true ↔ ∃ i, encode i = w := by
  have hrows : wordWf w = true ↔ w &&& 0x7FE#11 = 0x000#11 ∨ w &&& 0x700#11 = 0x100#11 ∨
      w &&& 0x7FF#11 = 0x200#11 ∨ w &&& 0x7FF#11 = 0x300#11 := by
    simp only [wordWf, opcodeTable, OpcodeRow.selects, List.any_cons, List.any_nil, Bool.or_eq_true, beq_iff_eq,
      Bool.or_false]
  rw [hrows, and_addMask_iff, and_pixMask_iff, and_flushMask_iff, and_eorMask_iff]
  constructor
  · rintro (⟨b, h⟩ | ⟨x, h⟩ | h | h)
    exacts [⟨.add b, h⟩, ⟨.pix x, h⟩, ⟨.flush, h⟩, ⟨.eor, h⟩]
  · rintro ⟨b | x | _ | _, h⟩
    exacts [.inl ⟨b, h⟩, .inr (.inl ⟨x, h⟩), .inr (.inr (.inl h)), .inr (.inr (.inr h))]

/-- Settles O3: each row selects the words of its own commands, whose meaning the decoder gives back. -/
theorem matchAndMaskSelectCommands : Obligations.MatchAndMaskSelectCommands := by
  intro w
  refine ⟨fun h => ?_, fun h => ?_, fun h => ?_, fun h => ?_, fun i h => ?_, ?_, decode_encode (.pix 100#8)⟩
  · obtain ⟨b, rfl⟩ := (and_addMask_iff w).1 h
    rw [decode_encode]
    cases b <;> rfl
  · obtain ⟨x, rfl⟩ := (and_pixMask_iff w).1 h
    have hdata : BitVec.ofNat 8 (256 + x.toNat) = x := BitVec.eq_of_toNat_eq (by
      rw [BitVec.toNat_ofNat, Nat.add_mod_left, Nat.mod_eq_of_lt x.isLt])
    rw [decode_encode, toNat_encode_pix, hdata]
  · rw [← (and_flushMask_iff w).1 h, decode_encode]
  · rw [← (and_eorMask_iff w).1 h, decode_encode]
  · obtain rfl := encode_of_decode w i h
    cases i with
    | add b => exact ⟨(and_addMask_iff _).2 ⟨b, rfl⟩, by cases b; exacts [.inl rfl, .inr rfl]⟩
    | pix x =>
      have hx := toNat_encode_pix x
      have hlt := x.isLt
      exact ⟨(and_pixMask_iff _).2 ⟨x, rfl⟩, by omega, by omega⟩
    | flush => exact ⟨(and_flushMask_iff _).2 rfl, rfl⟩
    | eor => exact ⟨(and_eorMask_iff _).2 rfl, rfl⟩
  · rw [wordWf_iff_encode]
    exact exists_congr fun i => (decodeInvertsEncode w i).symm

end Sys2Proof.Machine
end

section
/-! The text of a command (rule R82): the assembler reads back what `instrText` writes. -/

namespace Sys2Proof.Machine

/-! ## Decimal numerals -/

/-- The character of a decimal digit, as `decimal` writes it. -/
def digitChar (d : Nat) : Char := Char.ofNat (48 + d)

theorem toNat_digitChar (d : Nat) (hd : d < 10) : (digitChar d).toNat = 48 + d := by
  rw [digitChar, Char.toNat_ofNat, if_pos (.inl (by omega))]

theorem digitValue_digitChar (d : Nat) (hd : d < 10) : digitValue (digitChar d) = some d := by
  rw [digitValue, toNat_digitChar d hd, if_pos (by omega), Nat.add_sub_cancel_left]

/-- The digits of a number below 1000 are those that `decimal` writes. -/
def decimalDigits (n : Nat) : List Nat :=
  if n < 10 then [n] else if n < 100 then [n / 10, n % 10] else [n / 100, n / 10 % 10, n % 10]

theorem decimal_eq_map_digitChar (s : Byte) : decimal s = (decimalDigits s.toNat).map digitChar := by
  simp only [decimal, decimalDigits]
  split_ifs <;> rfl

theorem decimalDigits_lt {n d : Nat} (hn : n < 256) (hd : d ∈ decimalDigits n) : d < 10 := by
  unfold decimalDigits at hd
  split_ifs at hd <;> simp at hd <;> omega

theorem decimalDigits_ne_nil (n : Nat) : decimalDigits n ≠ [] := by
  unfold decimalDigits
  split_ifs <;> simp

/-- Horner's rule over the digits gives the number back. -/
theorem foldl_decimalDigits (n : Nat) : (decimalDigits n).foldl (fun v d => 10 * v + d) 0 = n := by
  unfold decimalDigits
  split_ifs <;> simp <;> omega

theorem digitsFrom_map_digitChar (ds : List Nat) (n : Nat) (h : ∀ d ∈ ds, d < 10) :
    digitsFrom 10 n (ds.map digitChar) = some (ds.foldl (fun v d => 10 * v + d) n) := by
  induction ds generalizing n with
  | nil => rfl
  | cons d ds ih =>
    obtain ⟨hd, hds⟩ := List.forall_mem_cons.1 h
    simp only [List.map_cons, digitsFrom, digitValue_digitChar d hd, if_pos hd, List.foldl_cons, ih _ hds]

theorem numeral_decimal (s : Byte) : numeral 10 (decimal s) = some s.toNat := by
  rw [numeral, decimal_eq_map_digitChar, if_neg (by simp [decimalDigits_ne_nil]),
    digitsFrom_map_digitChar _ _ fun d hd => decimalDigits_lt s.isLt hd, foldl_decimalDigits]

/-- A decimal numeral is made of digit characters: it holds no blank, no semicolon and no `x`. -/
theorem notMem_decimal {c : Char} (s : Byte) (hc : c.toNat < 48 ∨ 57 < c.toNat) : c ∉ decimal s := by
  rw [decimal_eq_map_digitChar, List.mem_map]
  rintro ⟨d, hd, rfl⟩
  have hlt := decimalDigits_lt s.isLt hd
  rw [toNat_digitChar d hlt] at hc
  omega

theorem decimal_ne_nil (s : Byte) : decimal s ≠ [] := by
  simp [decimal_eq_map_digitChar, decimalDigits_ne_nil]

theorem sampleLiteral_decimal (s : Byte) : sampleLiteral (decimal s) = some s := by
  unfold sampleLiteral
  split
  next digits h => exact absurd (h ▸ by simp) (notMem_decimal (c := 'x') s (by decide))
  next => simp [numeral_decimal, s.isLt]

/-! ## Lines -/

/-- Characters that are no blank extend the current word. -/
theorem lineWords_of_no_blank (word cs : List Char) (hs : ' ' ∉ cs) (ht : '\t' ∉ cs) (hne : word ++ cs ≠ []) :
    lineWords word cs = [word ++ cs] := by
  induction cs generalizing word with
  | nil => simpa [lineWords] using hne
  | cons c cs ih =>
    obtain ⟨hcs, hs⟩ := not_or.1 (List.mem_cons.not.1 hs)
    obtain ⟨hct, ht⟩ := not_or.1 (List.mem_cons.not.1 ht)
    rw [lineWords, if_neg (not_or.2 ⟨Ne.symm hcs, Ne.symm hct⟩), ih _ hs ht (by simp), List.append_assoc,
      List.singleton_append]

theorem takeWhile_of_no_semicolon (text : List Char) (h : ';' ∉ text) : text.takeWhile (· ≠ ';') = text :=
  List.takeWhile_eq_self_iff.2 fun _ hc => decide_eq_true fun hcs => h (hcs ▸ hc)

/-- A semicolon ends what is read of a line. -/
theorem assembleLine_comment (text comment : List Char) (h : ';' ∉ text) :
    assembleLine (text ++ ';' :: comment) = assembleLine text := by
  have hcut : (text ++ ';' :: comment).takeWhile (· ≠ ';') = text.takeWhile (· ≠ ';') := by
    rw [List.takeWhile_append, takeWhile_of_no_semicolon text h, if_pos rfl]
    exact List.append_nil text
  rw [assembleLine, assembleLine, hcut]

theorem semicolon_notMem_instrText (i : Instr) : ';' ∉ instrText i := by
  cases i with
  | add b => cases b <;> decide
  | pix s => simpa [instrText] using notMem_decimal (c := ';') s (by decide)
  | flush => decide
  | eor => decide

theorem lineWords_instrText_pix (s : Byte) : lineWords [] (instrText (.pix s)) = [['P', 'I', 'X'], decimal s] :=
  congrArg (['P', 'I', 'X'] :: ·) (lineWords_of_no_blank [] (decimal s) (notMem_decimal s (by decide))
    (notMem_decimal s (by decide)) (decimal_ne_nil s))

theorem assembleLine_instrText (i : Instr) : assembleLine (instrText i) = some [i] := by
  rw [assembleLine, takeWhile_of_no_semicolon _ (semicolon_notMem_instrText i)]
  cases i with
  | add b => cases b <;> rfl
  | pix s => simp [lineWords_instrText_pix, sampleLiteral_decimal]
  | flush => rfl
  | eor => rfl

/-- Settles O5: the text of a command holds no semicolon and its words read back. -/
theorem commandTextReadsBack : Obligations.CommandTextReadsBack := fun i comment =>
  ⟨assembleLine_instrText i, by
    rw [assembleLine_comment _ _ (semicolon_notMem_instrText i), assembleLine_instrText]⟩

end Sys2Proof.Machine
end

section
/-! The comparator `Thr` as a comparison of naturals, and PIX as the ADD of the thresholded bit, whose three ways to end follow
from how ADD fills the accumulator (rules R90 to R93, R103). -/

namespace Sys2Proof.Machine

/-! ## The comparator -/

theorem thr_eq_true_iff (s t : Byte) : thr s t = true ↔ t.toNat < s.toNat := decide_eq_true_iff

theorem thr_eq_false_iff (s t : Byte) : thr s t = false ↔ s.toNat ≤ t.toNat := decide_eq_false_iff_not.trans Nat.not_lt

theorem thr_mono {s s' : Byte} (t : Byte) (hs : s.toNat ≤ s'.toNat) (h : thr s t = true) : thr s' t = true := by
  rw [thr_eq_true_iff] at h ⊢
  exact h.trans_le hs

/-- Of the numbers below `m`, those above `t` begin at `t + 1`. -/
theorem countP_lt_range (t m : Nat) : ((List.range m).countP fun n => decide (t < n)) = m - (t + 1) := by
  induction m with
  | zero => simp
  | succ m ih =>
    rw [List.range_succ, List.countP_append, ih, List.countP_singleton]
    simp only [decide_eq_true_iff]
    split <;> omega

/-- Of the 256 samples those above the threshold give 1 (rule R93). -/
theorem countP_thr_range (t : Byte) : ((List.range 256).countP fun n => thr (BitVec.ofNat 8 n) t) = 255 - t.toNat := by
  have hnat : ∀ n ∈ List.range 256, thr (BitVec.ofNat 8 n) t = true ↔ decide (t.toNat < n) = true := fun n hn => by
    rw [thr_eq_true_iff, BitVec.toNat_ofNat, Nat.mod_eq_of_lt (List.mem_range.1 hn), decide_eq_true_iff]
  rw [List.countP_congr hnat, countP_lt_range]
  omega

/-! ## The bit of ADD in the accumulator -/

/-- ADD's bit stands in stage CNT, the other stages as before (rules R13, R103). -/
theorem getLsbD_withBit (b : Bool) (s : State) (j : Nat) :
    (withBit b s).getLsbD j = if j = 7 - s.cnt.toNat then b else s.acc.getLsbD j :=
  getLsbD_setBit _ _ _ _ (by unfold stagePos; omega)

theorem writesByte_add_iff (b : Bool) (s : State) : writesByte (.add b) s = true ↔ s.cnt.toNat = 7 :=
  writesByte_of_adding _ s (.inl ⟨b, rfl⟩)

/-- The byte ADD presents is the accumulator with its bit stored. -/
theorem byteOf_add (b : Bool) (s : State) : byteOf (.add b) s = withBit b s := assemble_eight _

/-- Below the eighth bit ADD stores its bit and counts one up. -/
theorem exec_add_below (b : Bool) (s : State) (hf : s.fault = false) (hc : s.cnt.toNat < 7) :
    exec (.add b) s = .next { s with acc := withBit b s, cnt := s.cnt + 1, cmdStatus := some .done, snkOut := none } :=
  exec_unwritten _ s hf (Bool.eq_false_iff.2 (mt (writesByte_add_iff b s).1 hc.ne))

/-- The eighth bit of ADD, accepted by the sink, goes out with the other seven and empties the accumulator. -/
theorem exec_add_last_ok (b : Bool) (s : State) (hf : s.fault = false) (hc : s.cnt.toNat = 7)
    (hr : s.snkResp = some .ok) :
    exec (.add b) s = .next { s with acc := 0x00#8, cnt := 0#3, out := s.out ++ [withBit b s], cmdStatus := some .done,
                                     snkOut := some (withBit b s) } := by
  rw [exec_writes_ok _ s hf ((writesByte_add_iff b s).2 hc) hr, byteOf_add]
  rfl

/-- The eighth bit of ADD, failed by the sink, takes the fault of cause 1. -/
theorem exec_add_last_fail (b : Bool) (s : State) (hf : s.fault = false) (hc : s.cnt.toNat = 7)
    (hr : s.snkResp = some .fail) : exec (.add b) s = .next (emitFailed (withBit b s) s) := by
  rw [exec_writes_fail _ s hf ((writesByte_add_iff b s).2 hc) hr, byteOf_add]

/-! ## PIX -/

/-- The words of PIX are `0x100` and up by the sample (rules R75, R92). -/
theorem decode_pixWord (x : Byte) : decode (BitVec.ofNat 11 (0x100 + x.toNat)) = .command (.pix x) := by
  refine decode_of_toNat_encode (.pix x) ?_
  rw [toNat_encode_pix, BitVec.toNat_ofNat, Nat.mod_eq_of_lt (by omega)]

/-- In every state, whatever the outcome, PIX is ADD of the thresholded bit (rule R92). -/
theorem exec_pix_eq_add (x : Byte) (s : State) : exec (.pix x) s = exec (.add (thr x s.thresh)) s := rfl

/-! ## The obligations -/

/-- Settles O10: `Thr` is `<` on the naturals, whose edges and count over the 256 samples follow. -/
theorem thresholdIsStrictAndUnsigned : Obligations.ThresholdIsStrictAndUnsigned := by
  refine ⟨thr_eq_true_iff, fun t => ?_, fun s => ?_, fun s => thr_eq_true_iff s 0#8, ?_, ?_, fun _ _ t => thr_mono t,
    countP_thr_range⟩
  · exact (thr_eq_false_iff t t).2 le_rfl
  · exact (thr_eq_false_iff s 255#8).2 (Nat.le_of_lt_succ s.isLt)
  · exact (thr_eq_false_iff 100#8 100#8).2 le_rfl
  · exact (thr_eq_true_iff 101#8 100#8).2 (by decide)

/-- Settles O11: PIX is ADD of the thresholded bit, which ADD stores, sends out with the byte, or loses to a fault. -/
theorem pixPutsThresholdedBit : Obligations.PixPutsThresholdedBit := by
  refine ⟨decode_pixWord, fun s x => exec_pix_eq_add x s, fun s x hf => ?_⟩
  rw [exec_pix_eq_add]
  refine ⟨withBit (thr x s.thresh) s, fun j _ => getLsbD_withBit _ s j, exec_add_below _ s hf,
    exec_add_last_ok _ s hf, fun hc hr => ?_⟩
  exact ⟨_, exec_add_last_fail _ s hf hc hr, rfl, rfl, rfl, rfl, rfl, rfl⟩

end Sys2Proof.Machine
end

section
/-! Byte assembly as a mask and as a sum (rules R100, R101): storing a bit in a stage that holds 0 adds its power of two, with
no carry. -/

namespace Sys2Proof.Machine

/-! ## The mask -/

theorem toNat_mask (k : Nat) : (mask k).toNat = 256 - 2 ^ (8 - k) := by
  have : 0 < 2 ^ (8 - k) := Nat.two_pow_pos _
  rw [mask, BitVec.toNat_ofNat, Nat.mod_eq_of_lt (by omega)]

theorem getLsbD_mask (k j : Nat) (hj : j < 8) : (mask k).getLsbD j = decide (8 - k ≤ j) := by
  have hpow : 2 ^ (8 - k) - 1 + 1 = 2 ^ (8 - k) := Nat.sub_add_cancel Nat.one_le_two_pow
  have hlt : 2 ^ (8 - k) - 1 < 2 ^ 8 := by
    have : 2 ^ (8 - k) ≤ 2 ^ 8 := Nat.pow_le_pow_right (by decide) (Nat.sub_le 8 k)
    omega
  rw [← BitVec.testBit_toNat, toNat_mask, ← hpow, Nat.testBit_two_pow_sub_succ hlt, Nat.testBit_two_pow_sub_one,
    decide_eq_true hj, Bool.true_and, ← decide_not, decide_eq_decide, Nat.not_lt]

/-- Assembling a byte is masking it (rule R101). -/
theorem assemble_eq_and_mask (a : Byte) (k : Nat) (hk : k ≤ 8) : assemble a k = a &&& mask k := by
  refine BitVec.eq_of_getLsbD_eq fun j hj => ?_
  rw [getLsbD_assemble a k j hk, BitVec.getLsbD_and, getLsbD_mask k j hj, Bool.and_comm]

/-! ## The sum -/

/-- Storing a bit where a 0 stands adds the bit's power of two (rule R104). -/
theorem toNat_setBit_of_clear (v : Byte) (i : Nat) (b : Bool) (hi : i < 8) (h : v.getLsbD i = false) :
    (setBit v i b).toNat = v.toNat + b.toNat * 2 ^ i := by
  cases b with
  | false =>
    have hsame : setBit v i false = v := BitVec.eq_of_getLsbD_eq fun j _ => by
      rw [getLsbD_setBit v i j false hi]
      split
      next hj => rw [hj, h]
      next => rfl
    rw [hsame, Bool.toNat_false, Nat.zero_mul, Nat.add_zero]
  | true =>
    have hdisjoint : v &&& BitVec.twoPow 8 i = 0#8 := by simp [BitVec.and_twoPow, h]
    have hset : setBit v i true = v + BitVec.twoPow 8 i := (BitVec.add_eq_or_of_and_eq_zero _ _ hdisjoint).symm
    have hpow : (BitVec.twoPow 8 i).toNat = 2 ^ i := BitVec.toNat_twoPow_of_lt hi
    rw [hset, BitVec.toNat_add_of_and_eq_zero hdisjoint, hpow, Bool.toNat_true, Nat.one_mul]

/-- An assembled byte is the sum of its stages (rule R100). -/
theorem toNat_assemble (a : Byte) (k : Nat) (hk : k ≤ 8) :
    (assemble a k).toNat = ((List.range k).map fun i => (a.getLsbD (7 - i)).toNat * 2 ^ (7 - i)).sum := by
  induction k with
  | zero => rfl
  | succ k ih =>
    have hclear : (assemble a k).getLsbD (stagePos k) = false := by
      rw [getLsbD_assemble a k _ (by omega), decide_eq_false (by unfold stagePos; omega), Bool.false_and]
    rw [assemble, toNat_setBit_of_clear _ _ _ (by unfold stagePos; omega) hclear, ih (by omega), List.range_succ,
      List.map_append, List.sum_append, List.map_singleton, List.sum_singleton, stagePos]

/-- Settles O15: the mask, the bits and the sum of an assembled byte, which zeros below the fill leave as it is. -/
theorem assembleKeepsTopBits : Obligations.AssembleKeepsTopBits := fun a k hk =>
  ⟨toNat_mask k, assemble_eq_and_mask a k hk, fun j _ => getLsbD_assemble a k j hk, toNat_assemble a k hk,
    fun s => (zeroBelowFill_iff_assemble s).1⟩

end Sys2Proof.Machine
end

section
/-! ADD and FLUSH by the fill count (rules R103 to R108), and what every completed command keeps (rule R111). -/

namespace Sys2Proof.Machine

/-! ## ADD -/

/-- Settles O12: the three ways ADD ends, by the fill count and the sink's answer. -/
theorem addPutsBitInNextStage : Obligations.AddPutsBitInNextStage := by
  refine ⟨decode_encode (.add false), decode_encode (.add true), fun s b hf => ?_⟩
  refine ⟨withBit b s, fun j _ => getLsbD_withBit b s j, exec_add_below b s hf, exec_add_last_ok b s hf, fun hc hr => ?_⟩
  exact ⟨_, exec_add_last_fail b s hf hc hr, rfl, rfl, rfl, rfl, rfl, rfl⟩

/-- Over zeros below the fill the stored bit is a summand (rule R104). -/
theorem toNat_withBit (b : Bool) (s : State) (hz : ZeroBelowFill s) :
    (withBit b s).toNat = s.acc.toNat + b.toNat * 2 ^ (7 - s.cnt.toNat) := by
  have hcnt := cnt_toNat_lt s
  have hclear : s.acc.getLsbD (7 - s.cnt.toNat) = false :=
    (toNat_mod_two_pow_eq_zero_iff s.acc (8 - s.cnt.toNat)).1 hz _ (by omega)
  exact toNat_setBit_of_clear s.acc (7 - s.cnt.toNat) b (by omega) hclear

/-- Settles O13: ACC with the bit stored is the sum, and it is a byte. -/
theorem addByFillCountIsASum : Obligations.AddByFillCountIsASum := by
  intro s b hf hz
  have hsum := toNat_withBit b s hz
  refine ⟨hsum ▸ (withBit b s).isLt, fun hc => ?_, fun hc hr => ?_⟩
  · have h7 : s.cnt ≠ 7#3 := fun h => by simp [h] at hc
    exact ⟨_, exec_add_below b s hf hc, hsum, cnt_toNat_add_one s h7, rfl⟩
  · refine ⟨_, _, exec_add_last_ok b s hf hc hr, rfl, rfl, rfl, ?_⟩
    simpa [hc] using hsum

/-! ## FLUSH -/

/-- FLUSH with nothing pending changes the report alone, whatever the sink would answer (rules R106, R107). -/
theorem exec_flush_empty (s : State) (hf : s.fault = false) (hc : s.cnt = 0#3) :
    exec .flush s = .next { s with cmdStatus := some .done, snkOut := none } :=
  exec_unwritten .flush s hf (by simp [writesByte, hc])

theorem writesByte_flush_of_pending (s : State) (hc : 0 < s.cnt.toNat) : writesByte .flush s = true :=
  (writesByte_of_flushing .flush s (.inl rfl)).2 ⟨hc.ne', .inl rfl⟩

/-- The byte FLUSH presents is the masked accumulator (rules R101, R106). -/
theorem byteOf_flush (s : State) : byteOf .flush s = s.acc &&& mask s.cnt.toNat :=
  assemble_eq_and_mask _ _ (cnt_toNat_lt s).le

/-- Settles O16: the three ways FLUSH ends, by the fill count and the sink's answer. -/
theorem flushByFillCount : Obligations.FlushByFillCount := by
  refine ⟨decode_encode .flush, fun s hf => ⟨fun hc => ?_, fun hc hr => ?_, fun hc hr => ?_⟩⟩
  · exact exec_flush_empty s hf (BitVec.eq_of_toNat_eq hc)
  · rw [exec_writes_ok .flush s hf (writesByte_flush_of_pending s hc) hr, byteOf_flush]
    rfl
  · exact ⟨_, exec_writes_fail .flush s hf (writesByte_flush_of_pending s hc) hr, rfl, rfl, rfl, rfl, rfl, rfl⟩

/-- Settles O14: the command that presents the eighth bit's byte leaves a running empty core, where FLUSH does nothing. -/
theorem eighthBitEmitsAtOnce : Obligations.EighthBitEmitsAtOnce := by
  intro s i hi hf hc hr
  exact ⟨_, _, exec_writes_ok i s hf ((writesByte_of_adding i s hi).2 hc) hr, rfl, rfl, hf,
    exec_flush_empty (emitted _ s) hf rfl⟩

/-- A FLUSH that completes leaves nothing pending. -/
theorem cnt_eq_zero_of_flush (s t : State) (he : exec .flush s = .next t) (ht : t.fault = false) : t.cnt = 0#3 := by
  obtain ⟨hf, rfl⟩ | ⟨-, hw, rfl⟩ | ⟨-, -, -, rfl⟩ | ⟨-, -, -, rfl⟩ := exec_next_cases .flush s t he
  · simp [hf] at ht
  · have hc : s.cnt = 0#3 := by simpa [writesByte] using hw
    exact hc
  · rfl
  · simp at ht

/-- FLUSH commands from a running empty core take their inputs and change the ports and the report alone. -/
theorem run_flushes_of_empty (answers : List (Option SinkResp)) (s : State) (rest : List PortInput)
    (hf : s.fault = false) (hc : s.cnt = 0#3)
    (hi : s.inputs = presented (answers.map fun r => (.flush, r)) ++ rest) :
    ∃ resp status snk, runSteps answers.length s =
      .next { s with inputs := rest, snkResp := resp, cmdStatus := status, snkOut := snk } := by
  induction answers generalizing s with
  | nil => exact ⟨s.snkResp, s.cmdStatus, s.snkOut, by rw [← show s.inputs = rest from hi]; rfl⟩
  | cons r more ih =>
    have hstep := (step_commandInput s .flush _ _ _ hi (decode_encode .flush)).trans (exec_flush_empty _ hf hc)
    obtain ⟨resp, status, snk, hrun⟩ := ih { s with
      inputs := presented (more.map fun r => (.flush, r)) ++ rest, snkResp := r, cmdStatus := some .done, snkOut := none }
      hf hc rfl
    exact ⟨resp, status, snk, (run_succ_of_next _ s _ hstep).trans hrun⟩

/-- Settles O17: the completed FLUSH leaves a running empty core, where further ones do nothing. -/
theorem repeatedFlushIsIdempotent : Obligations.RepeatedFlushIsIdempotent := by
  intro s t answers rest he ht hi
  have hc := cnt_eq_zero_of_flush s t he ht
  obtain ⟨_, _, _, hrun⟩ := run_flushes_of_empty answers t rest ht hc hi
  exact ⟨_, hrun, rfl, hc, rfl, ht, rfl, rfl, rfl, rfl, rfl⟩

/-! ## What a completed command keeps -/

theorem exec_keeps_zeroBelowFill (i : Instr) (s t : State) (hf : s.fault = false) (hz : ZeroBelowFill s)
    (he : exec i s = .next t) (ht : t.fault = false) : ZeroBelowFill t := by
  obtain ⟨hf', -⟩ | ⟨-, hw, rfl⟩ | ⟨-, -, -, rfl⟩ | ⟨-, -, -, rfl⟩ := exec_next_cases i s t he
  · simp [hf] at hf'
  · exact zeroBelowFill_unwritten i s hz hw
  · exact Nat.zero_mod _
  · simp at ht

theorem exec_keeps_out_leading (i : Instr) (s t : State) (he : exec i s = .next t) : s.out <+: t.out := by
  obtain ho | ⟨-, -, -, rfl⟩ := exec_out_cases i s t he
  · rw [ho]
  · exact ⟨[byteOf i s], rfl⟩

/-- Settles O33, by the frame of every command and the ways it can complete. -/
theorem completedCommandKeeps : Obligations.CompletedCommandKeeps := by
  intro s t i hf hz he ht
  obtain ⟨hthresh, hrowal, -, -, -⟩ := exec_keeps_configuration i s t he
  exact ⟨Nat.le_of_lt_succ (cnt_toNat_lt t), exec_keeps_zeroBelowFill i s t hf hz he ht, exec_keeps_out_leading i s t he,
    hthresh, hrowal⟩

end Sys2Proof.Machine
end

section
/-! A run of ADD commands and a final FLUSH writes the packed bits (rule R109), by the stream of bits of the run. -/

namespace Sys2Proof.Machine

/-- ADD commands append their bits to the stream. -/
theorem streamAfter_adds (thresh : Byte) (rowal : Bool) (bits before : List Bool) :
    streamAfter thresh rowal (bits.map .add) before = before ++ bits := by
  induction bits generalizing before with
  | nil => simp [streamAfter]
  | cons b rest ih => simpa [streamAfter, appendedBits] using ih (before ++ [b])

/-- A byte is its eight stages. -/
theorem leadingBits_eight_injective : Function.Injective (leadingBits · 8) := by
  intro v w h
  have hstages : assemble v 8 = assemble w 8 := (assemble_eq_iff v w 8 le_rfl).2 fun i hi => by
    have hi' := congrArg (·[i]?) h
    simpa only [getElem?_leadingBits _ 8 i hi, Option.some.injEq] using hi'
  simpa using hstages

/-- Bytes are determined by their bits in arrival order (rules R53, R54). -/
theorem bitsOf_injective : Function.Injective bitsOf := by
  intro a b h
  induction a generalizing b with
  | nil => simpa using (congrArg List.length h).symm
  | cons v a ih =>
    cases b with
    | nil => simpa using congrArg List.length h
    | cons w b =>
      simp only [bitsOf_eq_flatMap, List.flatMap_cons] at h
      obtain ⟨hbyte, hrest⟩ := List.append_inj h (by simp)
      rw [leadingBits_eight_injective hbyte, ih hrest]

/-- The number of pending bits and of whole bytes, from the length of the stream. -/
theorem stream_counts {t : State} {m n : Nat} (h : (bitStream t).length = 8 * m + n) :
    t.cnt.toNat = n % 8 ∧ t.out.length = m + n / 8 := by
  have hlt := cnt_toNat_lt t
  rw [length_bitStream] at h
  omega

/-- A run that begins with nothing in ACC and ends with nothing pending leaves nothing in ACC: what the shifting register
of rule R25 holds then has been shifted out. -/
theorem run_acc_eq_zero (cmds : List Instr) (s t : State) (rest : List PortInput) (hf : s.fault = false)
    (hacc : s.acc = 0x00#8) (hc : s.cnt = 0#3) (hi : s.inputs = presented (cmds.map fun i => (i, some .ok)) ++ rest)
    (hrun : runSteps cmds.length s = .next t) (ht : t.cnt = 0#3) : t.acc = 0x00#8 := by
  obtain ⟨t', hrun', -, hfollows⟩ := run_followsShift cmds s { sr := 0x00#8, n := 0#3 } rest hf ⟨hc, hacc⟩ hi
  obtain rfl : t = t' := Host.Outcome.next.inj (hrun.symm.trans hrun')
  obtain ⟨hcnt, hjust⟩ := hfollows.justified
  rw [hjust, shiftJustified, ← hcnt, ht]
  simp

/-- The inputs of rule R109's ADD commands, as those of a command list with every write accepted. -/
theorem presented_adds (bits : List Bool) :
    presented (bits.map fun b => (.add b, some .ok)) = presented ((bits.map .add).map fun i => (i, some .ok)) := by
  rw [List.map_map]
  rfl

/-- ADD commands from an empty accumulator leave their bits in the stream. -/
theorem run_adds (bits : List Bool) (s : State) (rest : List PortInput) (hf : s.fault = false) (hc : s.cnt = 0#3)
    (hi : s.inputs = presented (bits.map fun b => (.add b, some .ok)) ++ rest) :
    ∃ t, runSteps bits.length s = .next t ∧ t.fault = false ∧ bitStream t = bitsOf s.out ++ bits := by
  rw [presented_adds] at hi
  obtain ⟨t, hrun, -, ht, -, -, hbits⟩ := run_appends_bits (bits.map .add) s rest hf hi
  rw [streamAfter_adds, bitStream_of_empty s hc] at hbits
  rw [List.length_map] at hrun
  exact ⟨t, hrun, ht, hbits⟩

/-- A FLUSH after them fills the stream up to the packed bits, nothing pending. -/
theorem run_adds_flush (bits : List Bool) (s : State) (rest : List PortInput) (hf : s.fault = false) (hc : s.cnt = 0#3)
    (hi : s.inputs = presented (bits.map fun b => (.add b, some .ok)) ++ commandInput (encode .flush) (some .ok) :: rest) :
    ∃ u, runSteps (bits.length + 1) s = .next u ∧ u.fault = false ∧ u.cnt = 0#3 ∧
      (s.acc = 0x00#8 → u.acc = 0x00#8) ∧ u.out = s.out ++ pack bits ∧ u.inputs = rest := by
  have hi' : s.inputs = presented ((bits.map Instr.add ++ [Instr.flush]).map fun i => (i, some .ok)) ++ rest := by
    rw [hi, presented_adds, List.map_append, presented_append, List.append_assoc]
    rfl
  obtain ⟨u, hrun, hin, hu, -, -, hbits⟩ := run_appends_bits (bits.map .add ++ [.flush]) s rest hf hi'
  have hstream : bitStream u = bitsOf (s.out ++ pack bits) := by
    have hwhole : (bitsOf s.out).length % 8 = 0 := by rw [length_bitsOf, Nat.mul_mod_right]
    rw [hbits, streamAfter_append, streamAfter_adds, streamAfter_singleton, bitStream_of_empty s hc, appendedBits,
      List.length_append, padding_add_of_whole _ _ hwhole, bitsOf_append, bitsOf_pack, List.append_assoc]
  have hcu : u.cnt = 0#3 := BitVec.eq_of_toNat_eq <| by
    rw [← length_bitStream_mod, hstream, length_bitsOf, Nat.mul_mod_right]
    rfl
  have hacc (h : s.acc = 0x00#8) : u.acc = 0x00#8 := run_acc_eq_zero _ s u rest hf h hc hi' hrun hcu
  rw [bitStream_of_empty u hcu] at hstream
  rw [List.length_append, List.length_map] at hrun
  exact ⟨u, hrun, hu, hcu, hacc, bitsOf_injective hstream, hin⟩

/-- Settles O37: the runs of the ADD commands and of the FLUSH after them, counted by the length of the stream. -/
theorem addsThenFlushPackTheBits : Obligations.AddsThenFlushPackTheBits := by
  intro bits s rest hf hc hi
  obtain ⟨t, hrun, ht, hbits⟩ := run_adds bits s _ hf hc hi
  obtain ⟨hcnt, hout⟩ := stream_counts (t := t) (m := s.out.length) (n := bits.length) (by simp [hbits])
  exact ⟨length_pack bits, ⟨t, hrun, ht, hcnt, hout⟩, run_adds_flush bits s rest hf hc hi⟩

end Sys2Proof.Machine
end

section
/-! EOR by the mode, the fill count and the sink's answer (rules R121, R122). -/

namespace Sys2Proof.Machine

/-- In row-aligned mode EOR is FLUSH, in a fault state too (rule R121). -/
theorem exec_eor_aligned (s : State) (hr : s.rowal = true) : exec .eor s = exec .flush s := by
  cases hf : s.fault with
  | true => rw [exec_faulted .eor s hf, exec_faulted .flush s hf]
  | false =>
    calc exec .eor s = endRow { s with snkOut := none } := runCommand_running endRow s hf
      _ = flushBits { s with snkOut := none } := endRow_aligned _ hr
      _ = exec .flush s := (runCommand_running flushBits s hf).symm

theorem writesByte_eor_eq_false (s : State) (h : s.rowal = false ∨ s.cnt.toNat = 0) : writesByte .eor s = false := by
  rw [Bool.eq_false_iff, Ne, writesByte_of_flushing .eor s (.inr rfl)]
  rcases h with hr | hc
  · simp [hr]
  · simp [hc]

theorem writesByte_eor_of_pending (s : State) (hr : s.rowal = true) (hc : 0 < s.cnt.toNat) :
    writesByte .eor s = true :=
  (writesByte_of_flushing .eor s (.inr rfl)).2 ⟨hc.ne', .inr hr⟩

/-- Settles O18: in row-aligned mode EOR runs FLUSH's body, and otherwise it presents no byte. -/
theorem eorFlushesOnlyWhenRowAligned : Obligations.EorFlushesOnlyWhenRowAligned := by
  refine ⟨decode_encode .eor, fun s => ⟨exec_eor_aligned s, fun hf h => ?_, fun hf hr hc hok => ?_,
    fun hf hr hc hfail => ?_⟩⟩
  · exact exec_unwritten .eor s hf (writesByte_eor_eq_false s h)
  · exact exec_writes_ok .eor s hf (writesByte_eor_of_pending s hr hc) hok
  · exact ⟨_, exec_writes_fail .eor s hf (writesByte_eor_of_pending s hr hc) hfail, rfl, rfl, rfl⟩

end Sys2Proof.Machine
end

section
/-! The streams of a whole grid (rules R127, R128): their sizes, and the bits of the run that writes them. -/

namespace Sys2Proof.Machine

/-! ## The sizes of the two streams -/

theorem length_packedRows (g : Grid) (thresh : Byte) (w h : Nat) :
    (packedRows g thresh w h).length = h * bytesFor w := by
  simp [packedRows]

theorem length_gridBits (g : Grid) (thresh : Byte) (w h : Nat) : (gridBits g thresh w h).length = w * h := by
  simp [gridBits, mul_comm]

theorem length_packedGrid_aligned (g : Grid) (thresh : Byte) (w h : Nat) :
    (packedGrid true g thresh w h).length = h * bytesFor w := length_packedRows g thresh w h

theorem length_packedGrid_continuous (g : Grid) (thresh : Byte) (w h : Nat) :
    (packedGrid false g thresh w h).length = bytesFor (w * h) := by
  rw [← length_gridBits g thresh w h]
  exact length_pack _

/-- Padding every row instead of the last byte alone costs the whole bytes among all the rows' padding bits (rule R130). -/
theorem mul_bytesFor (w h : Nat) :
    h * bytesFor w = bytesFor (w * h) + if w % 8 = 0 then 0 else h * (8 - w % 8) / 8 := by
  obtain ⟨q, r, hr, rfl⟩ : ∃ q r, r < 8 ∧ w = 8 * q + r :=
    ⟨w / 8, w % 8, Nat.mod_lt _ (by decide), (Nat.div_add_mod w 8).symm⟩
  have hmod : (8 * q + r) % 8 = r := by omega
  have hbits : (8 * q + r) * h = 8 * (h * q) + h * r := by ring
  rw [hmod, hbits]
  unfold bytesFor
  split
  next h0 =>
    rw [h0, show (8 * q + 0 + 7) / 8 = q by omega]
    omega
  next h0 =>
    have hpad : h * (8 - r) + h * r = 8 * h := by rw [← Nat.mul_add, Nat.sub_add_cancel hr.le, mul_comm]
    rw [show (8 * q + r + 7) / 8 = q + 1 by omega, Nat.mul_add, Nat.mul_one]
    omega

/-- Settles O42: the sizes of the two streams, and their difference. -/
theorem rowAlignedSizeExceedsContinuous : Obligations.RowAlignedSizeExceedsContinuous := by
  intro g thresh w h
  rw [length_packedGrid_aligned, length_packedGrid_continuous, mul_bytesFor]
  refine ⟨rfl, ?_⟩
  split <;> omega

/-- Settles O44: the sizes by the dimensions, evaluated at the two grids of rule R132. -/
theorem endToEndSizes : Obligations.EndToEndSizes := fun g thresh =>
  ⟨length_packedGrid_aligned g thresh 24 14, length_packedGrid_continuous g thresh 30 30⟩

/-! ## The bits of the two streams -/

/-- No row is padded in continuous mode, nor where the rows fill whole bytes (rules R128, R129). -/
theorem gridStream_unpadded (rowal : Bool) (g : Grid) (thresh : Byte) (w h : Nat) (hw : rowal = true → w % 8 = 0) :
    gridStream rowal g thresh w h = gridBits g thresh w h := by
  have hrow (r : Nat) : rowStream rowal g thresh w r = rowBits g thresh w r := by
    cases rowal with
    | false => exact List.append_nil _
    | true =>
      have hpad : padding w = [] := by rw [← padding_mod, hw rfl, padding_zero]
      rw [rowStream, if_pos rfl, hpad, List.append_nil]
  exact congrArg ((List.range h).flatMap ·) (funext hrow)

/-- In row-aligned mode the rows end on byte boundaries and the final FLUSH pads nothing (rule R123). -/
theorem padding_gridStream_aligned (g : Grid) (thresh : Byte) (w h : Nat) :
    padding (gridStream true g thresh w h).length = [] := by
  rw [length_gridStream, rowStride, if_pos rfl, Nat.mul_left_comm, ← padding_mod, Nat.mul_mod_right, padding_zero]

/-- The packed grid is the rows as the mode pads them, and the padding of the final FLUSH (rules R127, R128). -/
theorem bitsOf_packedGrid (rowal : Bool) (g : Grid) (thresh : Byte) (w h : Nat) :
    bitsOf (packedGrid rowal g thresh w h) =
      gridStream rowal g thresh w h ++ padding (gridStream rowal g thresh w h).length := by
  cases rowal with
  | false =>
    rw [gridStream_unpadded false g thresh w h nofun]
    exact bitsOf_pack _
  | true =>
    have hrow (r : Nat) : bitsOf (pack (rowBits g thresh w r)) = rowStream true g thresh w r := by
      rw [bitsOf_pack, length_rowBits]
      rfl
    rw [padding_gridStream_aligned, List.append_nil]
    calc bitsOf (packedRows g thresh w h)
        = (List.range h).flatMap fun r => bitsOf (pack (rowBits g thresh w r)) := List.flatMap_assoc
      _ = gridStream true g thresh w h := congrArg ((List.range h).flatMap ·) (funext hrow)

/-- The grid's commands from an empty running state end cleanly with the packed grid appended to OUT. -/
theorem run_drive_packs (g : Grid) (w h : Nat) (s : State) (hf : s.fault = false) (hc : s.cnt = 0#3)
    (hi : s.inputs = presented ((drive g w h).map fun i => (i, some .ok))) :
    ∃ t, runSteps (drive g w h).length s = .next t ∧ CleanEnd t ∧
      t.out = s.out ++ packedGrid s.rowal g s.thresh w h := by
  obtain ⟨t, hrun, hend, hbits⟩ := run_drive g w h s hf hc hi
  refine ⟨t, hrun, hend, bitsOf_injective ?_⟩
  rw [hbits, bitsOf_append, bitsOf_packedGrid, List.append_assoc]

/-- Settles O39: the run of the grid's commands in row-aligned mode, and the size of its stream. -/
theorem rowAlignedGridPacksEachRow : Obligations.RowAlignedGridPacksEachRow := by
  intro g w h s hf hc hr hi
  obtain ⟨t, hrun, hend, hout⟩ := run_drive_packs g w h s hf hc hi
  rw [hr] at hout
  exact ⟨t, hrun, hend, hout, length_packedRows g s.thresh w h⟩

/-- Settles O40: the run of the grid's commands in continuous mode, and the size of its stream. -/
theorem continuousGridPacksAllBits : Obligations.ContinuousGridPacksAllBits := by
  intro g w h s hf hc hr hi
  obtain ⟨t, hrun, hend, hout⟩ := run_drive_packs g w h s hf hc hi
  rw [hr] at hout
  exact ⟨t, hrun, hend, hout, length_packedGrid_continuous g s.thresh w h⟩

end Sys2Proof.Machine
end

section
/-! The commands of a grid (rules R123 to R125): how many they are, what the final FLUSH finds and writes, and that those of a
zero-area grid write nothing (rule R131). -/

namespace Sys2Proof.Machine

/-! ## The final FLUSH -/

theorem length_driveRows (g : Grid) (w h : Nat) : ((List.range h).flatMap (driveRow g w)).length = w * h + h := by
  simp [driveRow, Nat.mul_add, mul_comm]

theorem length_drive (g : Grid) (w h : Nat) : (drive g w h).length = w * h + h + 1 := by
  rw [drive, List.length_append, length_driveRows]
  rfl

/-- The commands of the rows, before the final FLUSH, leave the bits of the rows in the stream. -/
theorem run_driveRows (g : Grid) (w h : Nat) (s : State) (rest : List PortInput) (hf : s.fault = false)
    (hc : s.cnt = 0#3)
    (hi : s.inputs = presented (((List.range h).flatMap (driveRow g w)).map fun i => (i, some .ok)) ++ rest) :
    ∃ t, runSteps (w * h + h) s = .next t ∧ t.inputs = rest ∧ t.fault = false ∧
      bitStream t = bitsOf s.out ++ gridStream s.rowal g s.thresh w h := by
  obtain ⟨t, hrun, hin, ht, -, -, hbits⟩ := run_appends_bits _ s rest hf hi
  rw [length_driveRows] at hrun
  rw [bitStream_of_empty s hc, streamAfter_driveRows _ _ _ _ _ _ fun _ => by simp] at hbits
  exact ⟨t, hrun, hin, ht, hbits⟩

/-- An accepted FLUSH empties the accumulator and writes one byte exactly when bits are pending (rule R106). -/
theorem step_flush_accepted (t : State) (rest : List PortInput) (hf : t.fault = false)
    (hi : t.inputs = commandInput (encode .flush) (some .ok) :: rest) :
    ∃ u, step t = .next u ∧ u.fault = false ∧ u.cnt = 0#3 ∧ (t.cnt.toNat = 0 → u.out = t.out) ∧
      (t.cnt.toNat ≠ 0 → ∃ v, u.out = t.out ++ [v]) := by
  rw [step_commandInput t .flush _ _ rest hi (decode_encode .flush)]
  obtain hc | hc := Nat.eq_zero_or_pos t.cnt.toNat
  · have hc' : t.cnt = 0#3 := BitVec.eq_of_toNat_eq hc
    exact ⟨_, exec_flush_empty _ hf hc', hf, hc', fun _ => rfl, fun h => absurd hc h⟩
  · exact ⟨_, exec_writes_ok .flush _ hf (writesByte_flush_of_pending _ hc) rfl, hf, rfl, fun h => absurd h hc.ne',
      fun _ => ⟨_, rfl⟩⟩

/-- Settles O45: the rows leave the last bits of their stream pending, which is what the final FLUSH writes. -/
theorem finalFlushWritesOnlyTheTail : Obligations.FinalFlushWritesOnlyTheTail := by
  intro g w h s hf hc hi
  have hi' : s.inputs = presented (((List.range h).flatMap (driveRow g w)).map fun i => (i, some .ok)) ++
      [commandInput (encode .flush) (some .ok)] := by
    rw [hi, drive, List.map_append, presented_append]
    rfl
  obtain ⟨t, hrun, hin, ht, hbits⟩ := run_driveRows g w h s _ hf hc hi'
  obtain ⟨u, hstep, hu, hcu, hnone, hone⟩ := step_flush_accepted t [] ht hin
  have hcnt : t.cnt.toNat = h * rowStride s.rowal w % 8 :=
    (stream_counts (m := s.out.length) (by rw [hbits, List.length_append, length_bitsOf, length_gridStream])).1
  refine ⟨length_drive g w h, t, u, hrun, hstep, ht, hu, hcu, fun hr => ?_, fun hr => ?_⟩
  · have h0 : t.cnt.toNat = 0 := by
      rw [hcnt, hr, rowStride, if_pos rfl, Nat.mul_left_comm, Nat.mul_mod_right]
    exact ⟨BitVec.eq_of_toNat_eq h0, hnone h0⟩
  · have htail : t.cnt.toNat = w * h % 8 := by
      rw [hcnt, hr, rowStride, if_neg Bool.false_ne_true, mul_comm]
    rw [htail] at hnone hone
    exact ⟨htail, hnone, hone⟩

/-! ## Zero-area grids -/

/-- The commands of a zero-area grid are EOR and FLUSH alone (rule R131). -/
theorem mem_drive_of_zero_area (g : Grid) (w h : Nat) (h0 : w = 0 ∨ h = 0) (i : Instr) (hi : i ∈ drive g w h) :
    i = .flush ∨ i = .eor := by
  rcases h0 with rfl | rfl
  · have hrows : (∃ r < h, i = .eor) ∨ i = .flush := by simpa [drive, driveRow] using hi
    exact hrows.symm.imp_right fun ⟨_, _, heor⟩ => heor
  · exact .inl (by simpa [drive] using hi)

/-- FLUSH and EOR with nothing pending change the report alone, whatever the sink would answer (rules R107, R122). -/
theorem exec_flushing_empty (i : Instr) (s : State) (hi : i = .flush ∨ i = .eor) (hf : s.fault = false)
    (hc : s.cnt = 0#3) : exec i s = .next { s with cmdStatus := some .done, snkOut := none } := by
  obtain rfl | rfl := hi
  · exact exec_flush_empty s hf hc
  · exact exec_unwritten .eor s hf (writesByte_eor_eq_false s (.inr (congrArg BitVec.toNat hc)))

/-- FLUSH and EOR commands from an empty running core leave it so and write nothing. -/
theorem run_flushing_of_empty (cmds : List (Instr × Option SinkResp)) (s : State)
    (hcmds : ∀ c ∈ cmds, c.1 = .flush ∨ c.1 = .eor) (hf : s.fault = false) (hc : s.cnt = 0#3)
    (hi : s.inputs = presented cmds) : ∃ t, runSteps cmds.length s = .next t ∧ CleanEnd t ∧ t.out = s.out := by
  induction cmds generalizing s with
  | nil => exact ⟨s, rfl, ⟨hi, hf, hc⟩, rfl⟩
  | cons c more ih =>
    obtain ⟨hflush, hmore⟩ := List.forall_mem_cons.1 hcmds
    have hstep := (step_commandInput s c.1 _ _ _ hi (decode_encode c.1)).trans
      (exec_flushing_empty c.1 _ hflush hf hc)
    obtain ⟨t, hrun, hend, hout⟩ := ih { s with
      inputs := presented more, snkResp := c.2, cmdStatus := some .done, snkOut := none } hmore hf hc rfl
    exact ⟨t, (run_succ_of_next _ s _ hstep).trans hrun, hend, hout⟩

/-- Settles O43: only EOR and FLUSH are presented, and nothing is ever pending. -/
theorem zeroAreaGridWritesNothing : Obligations.ZeroAreaGridWritesNothing := by
  intro g w h s cmds h0 hf hc hcmds hi
  have hflush : ∀ c ∈ cmds, c.1 = .flush ∨ c.1 = .eor := fun c hmem =>
    mem_drive_of_zero_area g w h h0 c.1 (hcmds ▸ List.mem_map_of_mem hmem)
  refine ⟨?_, ?_, run_flushing_of_empty cmds s hflush hf hc hi⟩
  · rcases h0 with rfl | rfl
    · exact Nat.mul_zero h
    · exact Nat.zero_mul _
  · rw [Nat.mul_eq_zero.2 h0]
    rfl

end Sys2Proof.Machine
end

section
/-! Two runs that differ in ROWAL alone go together as long as nothing is pending at an EOR (rule R129): the mode is read by
EOR only. -/

namespace Sys2Proof.Machine

/-- The state in another row-flush mode. -/
def withRowal (r : Bool) (s : State) : State := { s with rowal := r }

theorem takeInput_withRowal (r : Bool) (p : PortInput) (rest : List PortInput) (s : State) :
    takeInput p rest (withRowal r s) = withRowal r (takeInput p rest s) := rfl

/-- Whether a command presents a byte depends on the mode only for an EOR with bits pending (rule R121). -/
theorem writesByte_withRowal (r : Bool) (i : Instr) (s : State) (hc : i = .eor → s.cnt = 0#3) :
    writesByte i (withRowal r s) = writesByte i s := by
  cases i with
  | add b => rfl
  | pix x => rfl
  | flush => rfl
  | eor => simp [writesByte, withRowal, hc rfl]

theorem byteOf_withRowal (r : Bool) (i : Instr) (s : State) : byteOf i (withRowal r s) = byteOf i s := by
  cases i <;> rfl

theorem unwritten_withRowal (r : Bool) (i : Instr) (s : State) :
    unwritten i (withRowal r s) = withRowal r (unwritten i s) := by
  cases i <;> rfl

/-- A command does the same in either mode, but for an EOR that finds bits pending. -/
theorem exec_withRowal (r : Bool) (i : Instr) (s t : State) (hc : i = .eor → s.fault = false → s.cnt = 0#3)
    (he : exec i s = .next t) : exec i (withRowal r s) = .next (withRowal r t) := by
  have hwrites (hf : s.fault = false) := writesByte_withRowal r i s fun heor => hc heor hf
  obtain ⟨hf, rfl⟩ | ⟨hf, hw, rfl⟩ | ⟨hf, hw, hr, rfl⟩ | ⟨hf, hw, hr, rfl⟩ := exec_next_cases i s t he
  · exact exec_faulted i _ hf
  · rw [← unwritten_withRowal]
    exact exec_unwritten i _ hf ((hwrites hf).trans hw)
  · rw [← byteOf_withRowal r]
    exact exec_writes_ok i _ hf ((hwrites hf).trans hw) hr
  · rw [← byteOf_withRowal r]
    exact exec_writes_fail i _ hf ((hwrites hf).trans hw) hr

/-- Nothing is pending at any EOR that a run of these commands from `s` reaches without a fault. -/
def EmptyAtEveryEor (cmds : List (Instr × Option SinkResp)) (s : State) : Prop :=
  ∀ before r after u, cmds = before ++ (.eor, r) :: after → runSteps before.length s = .next u → u.fault = false →
    u.cnt = 0#3

theorem EmptyAtEveryEor.head {c : Instr × Option SinkResp} {more : List (Instr × Option SinkResp)} {s : State}
    (h : EmptyAtEveryEor (c :: more) s) (heor : c.1 = .eor) (hf : s.fault = false) : s.cnt = 0#3 :=
  h [] c.2 more s (by rw [← heor]; rfl) rfl hf

theorem EmptyAtEveryEor.tail {c : Instr × Option SinkResp} {more : List (Instr × Option SinkResp)} {s u : State}
    (h : EmptyAtEveryEor (c :: more) s) (hstep : step s = .next u) : EmptyAtEveryEor more u :=
  fun before r after v heq hrun =>
    h (c :: before) r after v (by rw [heq]; rfl) ((run_succ_of_next _ s u hstep).trans hrun)

theorem step_presented (s : State) (c : Instr × Option SinkResp) (more : List (Instr × Option SinkResp))
    (hi : s.inputs = presented (c :: more)) :
    step s = exec c.1 (takeInput (commandInput (encode c.1) c.2) (presented more) s) :=
  step_command s _ _ c.1 ⟨hi, rfl, rfl⟩ (decode_encode c.1)

theorem step_withRowal (r : Bool) (c : Instr × Option SinkResp) (more : List (Instr × Option SinkResp)) (s u : State)
    (hi : s.inputs = presented (c :: more)) (hempty : EmptyAtEveryEor (c :: more) s) (hs : step s = .next u) :
    step (withRowal r s) = .next (withRowal r u) ∧ u.inputs = presented more := by
  rw [step_presented s c more hi] at hs
  rw [step_presented (withRowal r s) c more hi, takeInput_withRowal]
  obtain ⟨-, -, hinputs, -, -⟩ := exec_keeps_configuration c.1 _ u hs
  exact ⟨exec_withRowal r c.1 _ u (fun heor hf => hempty.head heor hf) hs, hinputs⟩

/-- A command list runs the same in either mode when nothing is pending at its EORs. -/
theorem run_withRowal (r : Bool) (cmds : List (Instr × Option SinkResp)) (s t : State)
    (hi : s.inputs = presented cmds) (hempty : EmptyAtEveryEor cmds s) (hrun : runSteps cmds.length s = .next t) :
    runSteps cmds.length (withRowal r s) = .next (withRowal r t) := by
  induction cmds generalizing s with
  | nil =>
    obtain rfl : s = t := Host.Outcome.next.inj hrun
    rfl
  | cons c more ih =>
    rcases hs : step s with u | f | f
    · obtain ⟨hstep, hinputs⟩ := step_withRowal r c more s u hi hempty hs
      rw [List.length_cons, run_succ_of_next _ _ _ hs] at hrun
      rw [List.length_cons, run_succ_of_next _ _ _ hstep]
      exact ih u hinputs (hempty.tail hs) hrun
    · rw [List.length_cons, run_succ_of_fault _ _ _ hs] at hrun
      cases hrun
    · rw [List.length_cons, run_succ_of_refused _ _ _ hs] at hrun
      cases hrun

/-- Settles O41: rows of whole bytes have the same bits in both streams, and two runs that differ in ROWAL alone go
together. -/
theorem modesAgreeWhenRowsFillBytes : Obligations.ModesAgreeWhenRowsFillBytes := by
  constructor
  · intro g thresh w h hw
    have hbits : bitsOf (packedGrid true g thresh w h) = bitsOf (packedGrid false g thresh w h) := by
      simp only [bitsOf_packedGrid, gridStream_unpadded _ _ _ _ _ fun _ => hw]
    exact bitsOf_injective hbits
  · intro cmds s t t' _ hempty hrun hrun'
    have hother := run_withRowal false cmds _ t rfl hempty hrun
    obtain rfl : withRowal false t = t' := Host.Outcome.next.inj (hother.symm.trans hrun')
    rfl

end Sys2Proof.Machine
end

section
/-! Taking a fault and being in one (rules R145 to R151): which presented word raises which cause, what a step leaves as it
was when it raises a fault, and that nothing but a reset changes a fault state. -/

namespace Sys2Proof.Machine

/-! ## Raising a fault -/

/-- The cause of the fault that presenting a word can raise, by what the word decodes to (rule R145). -/
def causeOf : Decoded → FCause
  | .command _ => .sinkWriteFailure
  | .illegalBitValue => .illegalBitValue
  | .reserved => .reservedCommand

/-- A running core faults on a command exactly when the sink fails the byte that the command presents (rule R141). -/
theorem exec_fault_iff (i : Instr) (s t : State) (hf : s.fault = false) (he : exec i s = .next t) :
    t.fault = true ↔ writesByte i s = true ∧ s.snkResp = some .fail := by
  obtain ⟨hf', -⟩ | ⟨-, hw, rfl⟩ | ⟨-, -, hr, rfl⟩ | ⟨-, hw, hr, rfl⟩ := exec_next_cases i s t he
  · simp [hf] at hf'
  · simp [hf, hw]
  · simp [hf, hr]
  · simp [hw, hr]

theorem exec_eq_emitFailed_of_fault (i : Instr) (s t : State) (hf : s.fault = false) (he : exec i s = .next t)
    (ht : t.fault = true) : t = emitFailed (byteOf i s) s := by
  obtain ⟨hw, hr⟩ := (exec_fault_iff i s t hf he).1 ht
  exact Host.Outcome.next.inj (he.symm.trans (exec_writes_fail i s hf hw hr))

/-- A step that raises a fault has taken its inputs, with a word presented, and takes the fault of that word: beside what
taking a fault changes, only the byte on the sink port and the sink's tail can differ (rules R146, R147). -/
theorem step_raises_fault (s t : State) (hf : s.fault = false) (hs : step s = .next t) (ht : t.fault = true) :
    ∃ p rest snk tail, PresentsCommand s p rest ∧
      t = raiseFault (causeOf (decode p.cmd)) { takeInput p rest s with snkOut := snk, sinkTail := tail } := by
  rcases step_next_cases s t hs with ⟨-, rfl⟩ | ⟨p, rest, hi, hcases⟩
  · simp [hf] at ht
  obtain ⟨-, rfl⟩ | ⟨-, -, rfl⟩ | ⟨-, -, hf', -⟩ | ⟨hr, hv, -, hd, rfl⟩ | ⟨hr, hv, -, hd, rfl⟩ |
    ⟨hr, hv, -, i, hd, he⟩ := hcases
  · simp at ht
  · simp [hf] at ht
  · simp [hf] at hf'
  · exact ⟨p, rest, none, s.sinkTail, ⟨hi, hr, hv⟩, by rw [hd]; rfl⟩
  · exact ⟨p, rest, none, s.sinkTail, ⟨hi, hr, hv⟩, by rw [hd]; rfl⟩
  · obtain rfl := exec_eq_emitFailed_of_fault i (takeInput p rest s) t hf he ht
    exact ⟨p, rest, some (byteOf i (takeInput p rest s)), Config.sinkTail s.draws, ⟨hi, hr, hv⟩, by rw [hd]; rfl⟩

/-! ## In a fault state -/

/-- In a fault state a step at most takes its inputs or refuses the presented word, or it is a reset (rules R149 to R151). -/
theorem step_faulted_cases (s t : State) (hf : s.fault = true) (hs : step s = .next t) :
    t = s ∨ ∃ p rest, s.inputs = p :: rest ∧
      ((p.rst = true ∧ t = assertReset p (takeInput p rest s)) ∨ t = takeInput p rest s ∨
        t = blocked (takeInput p rest s)) := by
  rcases step_next_cases s t hs with ⟨-, rfl⟩ | ⟨p, rest, hi, hcases⟩
  · exact .inl rfl
  refine .inr ⟨p, rest, hi, ?_⟩
  obtain hreset | ⟨-, -, hidle⟩ | ⟨-, -, -, hblocked⟩ | ⟨-, -, hf', -⟩ | ⟨-, -, hf', -⟩ | ⟨-, -, hf', -⟩ := hcases
  · exact .inl hreset
  · exact .inr (.inl hidle)
  · exact .inr (.inr hblocked)
  all_goals simp [hf] at hf'

/-! ## The obligations -/

/-- Settles O20: a command faults when the byte it presents is failed, and the rejected words always do. -/
theorem faultTableOfCommands : Obligations.FaultTableOfCommands := by
  intro s t p rest hp hf hs
  have hcommand (i : Instr) (hd : decode p.cmd = .command i) :
      (t.fault = true ↔ writesByte i s = true ∧ p.snkResp = some .fail) ∧ (t.fault = true → t.fcause.code = 1#2) := by
    have he : exec i (takeInput p rest s) = .next t := (step_command s p rest i hp hd).symm.trans hs
    refine ⟨by simpa using exec_fault_iff i (takeInput p rest s) t hf he, fun ht => ?_⟩
    rw [exec_eq_emitFailed_of_fault i (takeInput p rest s) t hf he ht]
    rfl
  have hrejected (c : FCause) (hc : presentWord p.cmd (takeInput p rest s) = rejectWord c (takeInput p rest s)) :
      t.fault = true ∧ t.fcause.code = c.code := by
    obtain ⟨u, hu, hfault, hcause, -⟩ := step_rejected s p rest c hp hf hc
    obtain rfl : t = u := Host.Outcome.next.inj (hs.symm.trans hu)
    exact ⟨hfault, hcause⟩
  cases hd : decode p.cmd with
  | illegalBitValue => exact hrejected .illegalBitValue (presentWord_illegal _ _ hd)
  | reserved => exact hrejected .reservedCommand (presentWord_reserved _ _ hd)
  | command i =>
    have hi := hcommand i hd
    cases i with
    | add b => rwa [writesByte_of_adding _ s (.inl ⟨b, rfl⟩)] at hi
    | pix x => rwa [writesByte_of_adding _ s (.inr ⟨x, rfl⟩)] at hi
    | flush => simpa [writesByte_of_flushing .flush s (.inl rfl)] using hi
    | eor => simpa [writesByte_of_flushing .eor s (.inr rfl), and_comm, and_assoc] using hi

/-- Settles O21: what a step that raises a fault leaves, with the code of the word's cause. -/
theorem faultEntryKeepsOutput : Obligations.FaultEntryKeepsOutput := by
  intro s t hf hs ht
  obtain ⟨p, rest, _, _, hp, rfl⟩ := step_raises_fault s t hf hs ht
  exact ⟨rfl, rfl, rfl, rfl, p, rest, hp, by cases decode p.cmd <;> rfl⟩

/-- Settles O22: a command and a presented word are refused alike. -/
theorem faultedCoreExecutesNothing : Obligations.FaultedCoreExecutesNothing := fun s hf =>
  ⟨fun i => exec_faulted i s hf, fun p rest hp => (step_present s p rest hp).trans (presentWord_faulted p.cmd _ hf)⟩

/-- Settles O23: of all a step can do in a fault state, only a reset touches the fault registers. -/
theorem onlyResetLeavesFault : Obligations.OnlyResetLeavesFault := by
  intro s t hf hs
  obtain rfl | ⟨p, rest, hi, ⟨hr, -⟩ | rfl | rfl⟩ := step_faulted_cases s t hf hs
  · exact .inl ⟨hf, rfl⟩
  · exact .inr ⟨p, rest, hi, hr⟩
  · exact .inl ⟨hf, rfl⟩
  · exact .inl ⟨hf, rfl⟩

end Sys2Proof.Machine
end

section
/-! The sink only grows (rules R30, R147, R161): commands append to it, and neither a fault nor a reset removes a byte. -/

namespace Sys2Proof.Machine

/-- With no tail the sink holds `S0 ++ OUT` (rule R30). -/
theorem sinkContents_of_no_tail (s : State) (h : s.sinkTail = []) : sinkContents s = s.sinkBefore ++ s.out := by
  rw [sinkContents, h, List.append_nil]

/-- What the sink holds becomes the `S0` of the new history (rule R161). -/
@[simp] theorem sinkContents_assertReset (p : PortInput) (s : State) :
    sinkContents (assertReset p s) = sinkContents s :=
  (sinkContents_of_no_tail _ rfl).trans (List.append_nil _)

@[simp] theorem sinkContents_takeInput (p : PortInput) (rest : List PortInput) (s : State) :
    sinkContents (takeInput p rest s) = sinkContents s := rfl

/-- A command only appends to a sink that holds `S0 ++ OUT`. -/
theorem exec_sink_grows (i : Instr) (s t : State) (htail : s.sinkTail = []) (he : exec i s = .next t) :
    sinkContents s <+: sinkContents t := by
  obtain ⟨-, -, -, -, hbefore⟩ := exec_keeps_configuration i s t he
  rw [sinkContents_of_no_tail s htail, sinkContents, hbefore]
  exact ((List.prefix_append_right_inj _).2 (exec_keeps_out_leading i s t he)).trans (List.prefix_append _ _)

/-- A step of a running core only appends to the sink. -/
theorem step_sink_grows_of_running (s t : State) (h : CoreInv s) (hf : s.fault = false) (hs : step s = .next t) :
    sinkContents s <+: sinkContents t := by
  rcases step_next_cases s t hs with ⟨-, rfl⟩ | ⟨p, rest, -, hcases⟩
  · exact List.prefix_rfl
  obtain ⟨-, rfl⟩ | ⟨-, -, rfl⟩ | ⟨-, -, -, rfl⟩ | ⟨-, -, -, -, rfl⟩ | ⟨-, -, -, -, rfl⟩ | ⟨-, -, -, i, -, he⟩ := hcases
  · simp
  · exact List.prefix_rfl
  · exact List.prefix_rfl
  · exact List.prefix_rfl
  · exact List.prefix_rfl
  · exact exec_sink_grows i (takeInput p rest s) t (h.running hf).2 he

/-- In a fault state no step changes what the sink holds (rules R149, R161). -/
theorem step_faulted_keeps_sink (s t : State) (hf : s.fault = true) (hs : step s = .next t) :
    sinkContents t = sinkContents s := by
  obtain rfl | ⟨p, rest, -, ⟨-, rfl⟩ | rfl | rfl⟩ := step_faulted_cases s t hf hs
  · rfl
  · exact sinkContents_assertReset p _
  · rfl
  · rfl

/-- Settles O27: a running core's sink only grows, a faulted one's stays, and only a failed write leaves a tail. -/
theorem sinkIsNeverRolledBack : Obligations.SinkIsNeverRolledBack := by
  intro s t h hs
  refine ⟨?_, fun ht => ?_, fun hf => step_faulted_keeps_sink s t hf hs, fun hf ht => ?_⟩
  · cases hf : s.fault with
    | true => exact ⟨[], (step_faulted_keeps_sink s t hf hs).trans (List.append_nil _).symm⟩
    | false =>
      obtain ⟨more, hmore⟩ := step_sink_grows_of_running s t h hf hs
      exact ⟨more, hmore.symm⟩
  · exact sinkContents_of_no_tail t ((stepKeepsInvariant s t h hs).running ht).2
  · obtain ⟨_, _, _, _, -, rfl⟩ := step_raises_fault s t hf hs ht
    exact ⟨rfl, rfl, rfl⟩

end Sys2Proof.Machine
end

section
/-! A presented command list whose bytes the sink answers, each with success or failure (rules R147, R149): it runs to its end,
and writes either the whole stream of its bits or, cut short by a fault, a proper leading part of it. -/

namespace Sys2Proof.Machine

/-! ## A stream of bits and its leading parts -/

/-- A byte sequence whose bits lead another's is a leading part of it (rules R53, R54). -/
theorem prefix_of_bitsOf_prefix {a b : List Byte} (h : bitsOf a <+: bitsOf b) : a <+: b := by
  obtain ⟨more, hmore⟩ := h
  have hle : a.length ≤ b.length := by
    have hlen := congrArg List.length hmore
    simp only [List.length_append, length_bitsOf] at hlen
    omega
  rw [← List.take_append_drop a.length b, bitsOf_append] at hmore
  obtain ⟨htake, -⟩ := List.append_inj hmore (by simp [hle])
  rw [bitsOf_injective htake]
  exact List.take_prefix _ _

/-- Further commands only append to the stream (rule R112). -/
theorem prefix_streamAfter (thresh : Byte) (rowal : Bool) (cmds : List Instr) (bits : List Bool) :
    bits <+: streamAfter thresh rowal cmds bits := by
  induction cmds generalizing bits with
  | nil => exact List.prefix_rfl
  | cons i more ih => exact (List.prefix_append _ _).trans (ih _)

/-! ## How a command list ends -/

/-- Either nothing is lost and the stream is OUT and the pending bits, or a write has failed and a byte of the stream is
missing after OUT. -/
def WholeOrCutShort (t : State) (stream : List Bool) : Prop :=
  (t.fault = false ∧ bitStream t = stream) ∨
  (t.fault = true ∧ t.fcause = .sinkWriteFailure ∧ ∃ v, bitsOf (t.out ++ [v]) <+: stream)

/-- The byte a command presents completes the pending bits with the command's own. -/
theorem bitsOf_out_append_byteOf (i : Instr) (s : State) (hw : writesByte i s = true) :
    bitsOf (s.out ++ [byteOf i s]) = bitStream s ++ appendedBits s.thresh s.rowal i (bitStream s).length := by
  rw [bitsOf_append, bitsOf_singleton, leadingBits_byteOf i s hw, ← List.append_assoc, ← length_bitStream_mod s,
    appendedBits_mod, bitStream]

/-- A command whose byte is answered completes its bits in the stream or loses the byte to a fault. -/
theorem exec_answered (i : Instr) (s : State) (hf : s.fault = false) (hr : s.snkResp ≠ none) :
    ∃ t, exec i s = .next t ∧
      WholeOrCutShort t (bitStream s ++ appendedBits s.thresh s.rowal i (bitStream s).length) := by
  obtain ⟨t, he⟩ := exec_answers_next i s fun _ _ => hr
  refine ⟨t, he, ?_⟩
  cases ht : t.fault with
  | false =>
    refine .inl ⟨ht, ?_⟩
    rw [exec_appends_bits i s t hf he ht, ← length_bitStream_mod s, appendedBits_mod]
  | true =>
    obtain ⟨hw, -⟩ := (exec_fault_iff i s t hf he).1 ht
    rw [exec_eq_emitFailed_of_fault i s t hf he ht, ← bitsOf_out_append_byteOf i s hw]
    exact .inr ⟨rfl, rfl, byteOf i s, List.prefix_rfl⟩

/-- In a fault state a command list takes its inputs and has no effect (rule R149). -/
theorem run_faulted (cmds : List (Instr × Option SinkResp)) (s : State) (hf : s.fault = true)
    (hi : s.inputs = presented cmds) :
    ∃ t, runSteps cmds.length s = .next t ∧ t.inputs = [] ∧ t.out = s.out ∧ t.fault = true ∧ t.fcause = s.fcause := by
  induction cmds generalizing s with
  | nil => exact ⟨s, rfl, hi, rfl, hf, rfl⟩
  | cons c more ih =>
    have hstep := (step_presented s c more hi).trans (exec_faulted c.1 _ hf)
    obtain ⟨t, hrun, hin, hout, hfault, hcause⟩ := ih (blocked (takeInput _ (presented more) s)) hf rfl
    exact ⟨t, (run_succ_of_next _ s _ hstep).trans hrun, hin, hout, hfault, hcause⟩

/-- A command list whose bytes are all answered runs to its end, with its whole stream written or cut short. -/
theorem run_answered (cmds : List (Instr × Option SinkResp)) (s : State) (hf : s.fault = false)
    (hr : ∀ c ∈ cmds, c.2 ≠ none) (hi : s.inputs = presented cmds) :
    ∃ t, runSteps cmds.length s = .next t ∧ t.inputs = [] ∧ s.out <+: t.out ∧
      WholeOrCutShort t (streamAfter s.thresh s.rowal (cmds.map Prod.fst) (bitStream s)) := by
  induction cmds generalizing s with
  | nil => exact ⟨s, rfl, hi, List.prefix_rfl, .inl ⟨hf, rfl⟩⟩
  | cons c more ih =>
    obtain ⟨hc, hmore⟩ := List.forall_mem_cons.1 hr
    obtain ⟨u, he, hu⟩ := exec_answered c.1 (takeInput (commandInput (encode c.1) c.2) (presented more) s) hf hc
    have hstep : step s = .next u := (step_presented s c more hi).trans he
    obtain ⟨hthresh, hrowal, hin, -, -⟩ := exec_keeps_configuration c.1 _ u he
    have hout : s.out <+: u.out := exec_keeps_out_leading c.1 (takeInput _ _ s) u he
    obtain ⟨huf, hbits⟩ | ⟨huf, hcause, v, hv⟩ := hu
    · obtain ⟨t, hrun, hend, hout', ht⟩ := ih u huf hmore hin
      rw [hthresh, hrowal, hbits] at ht
      exact ⟨t, (run_succ_of_next _ s u hstep).trans hrun, hend, hout.trans hout', ht⟩
    · obtain ⟨t, hrun, hend, hout', htf, hcause'⟩ := run_faulted more u huf hin
      rw [← hout'] at hv hout
      exact ⟨t, (run_succ_of_next _ s u hstep).trans hrun, hend, hout,
        .inr ⟨htf, hcause'.trans hcause, v, hv.trans (prefix_streamAfter _ _ _ _)⟩⟩

/-! ## The commands of a grid -/

/-- From a byte boundary the grid's commands append the bits of the packed grid (rules R127, R128). -/
theorem streamAfter_drive (g : Grid) (thresh : Byte) (rowal : Bool) (w h : Nat) (out : List Byte) :
    streamAfter thresh rowal (drive g w h) (bitsOf out) = bitsOf (out ++ packedGrid rowal g thresh w h) := by
  have hwhole : (bitsOf out).length % 8 = 0 := by rw [length_bitsOf, Nat.mul_mod_right]
  rw [drive, streamAfter_append, streamAfter_driveRows _ _ _ _ _ _ fun _ => hwhole, streamAfter_singleton,
    List.length_append, appendedBits, padding_add_of_whole _ _ hwhole, bitsOf_append, bitsOf_packedGrid,
    List.append_assoc]

/-- A state whose stream is whole bytes has nothing pending and those bytes in OUT. -/
theorem out_of_bitStream_eq_bitsOf (t : State) (bytes : List Byte) (h : bitStream t = bitsOf bytes) :
    t.cnt = 0#3 ∧ t.out = bytes := by
  have hcnt : t.cnt = 0#3 := BitVec.eq_of_toNat_eq <| by
    rw [← length_bitStream_mod, h, length_bitsOf, Nat.mul_mod_right]
    rfl
  exact ⟨hcnt, bitsOf_injective ((bitStream_of_empty t hcnt).symm.trans h)⟩

/-- Bytes that extend `out` and miss at least one byte of `out ++ more` extend it by a proper leading part of `more`. -/
theorem exists_take_of_prefix {out bytes more : List Byte} {v : Byte} (h : out <+: bytes)
    (hv : bytes ++ [v] <+: out ++ more) : ∃ k < more.length, bytes = out ++ more.take k := by
  obtain ⟨done, rfl⟩ := h
  rw [List.append_assoc, List.prefix_append_right_inj] at hv
  refine ⟨done.length, by simpa using hv.length_le, ?_⟩
  rw [← List.prefix_iff_eq_take.1 ((List.prefix_append _ _).trans hv)]

/-- Settles O47: the grid's run writes the whole stream of its bits, or a leading part that a failed byte cuts short. -/
theorem failedRunKeepsALeadingPart : Obligations.FailedRunKeepsALeadingPart := by
  intro g w h s cmds hf hc hcmds hr hi
  obtain ⟨t, hrun, hin, hout, ht⟩ := run_answered cmds s hf hr hi
  rw [hcmds, bitStream_of_empty s hc, streamAfter_drive] at ht
  refine ⟨t, hrun, ?_⟩
  obtain ⟨htf, hbits⟩ | ⟨htf, hcause, v, hv⟩ := ht
  · obtain ⟨hct, hwhole⟩ := out_of_bitStream_eq_bitsOf t _ hbits
    exact .inl ⟨⟨hin, htf, hct⟩, hwhole⟩
  · exact .inr ⟨htf, hcause, exists_take_of_prefix hout (prefix_of_bitsOf_prefix hv)⟩

end Sys2Proof.Machine
end

section
/-! Reset as a step (rules R160, R161) and the configuration, which no other step loads or reads from its inputs (rule
R166). -/

namespace Sys2Proof.Machine

/-- Settles O29: the step is a reset, whose fields are the reset values, and which keeps what the sink holds. -/
theorem resetActsInEveryState : Obligations.ResetActsInEveryState := fun s p rest hi hr =>
  ⟨assertReset p (takeInput p rest s), step_reset s p rest hi hr, rfl, rfl, rfl, rfl, rfl, rfl, rfl, rfl, rfl,
    sinkContents_assertReset p _, rfl⟩

/-- Of all a step can do, only a reset loads the configuration (rules R26, R27, R166). -/
theorem step_keeps_configuration (s t : State) (hs : step s = .next t)
    (hnr : ∀ p rest, s.inputs = p :: rest → p.rst = false) : t.thresh = s.thresh ∧ t.rowal = s.rowal := by
  rcases step_next_cases s t hs with ⟨-, rfl⟩ | ⟨p, rest, hi, hcases⟩
  · exact ⟨rfl, rfl⟩
  obtain ⟨hr, -⟩ | ⟨-, -, rfl⟩ | ⟨-, -, -, rfl⟩ | ⟨-, -, -, -, rfl⟩ | ⟨-, -, -, -, rfl⟩ | ⟨-, -, -, i, -, he⟩ := hcases
  · simp [hnr p rest hi] at hr
  · exact ⟨rfl, rfl⟩
  · exact ⟨rfl, rfl⟩
  · exact ⟨rfl, rfl⟩
  · exact ⟨rfl, rfl⟩
  · obtain ⟨hthresh, hrowal, -⟩ := exec_keeps_configuration i (takeInput p rest s) t he
    exact ⟨hthresh, hrowal⟩

/-- Without `rst` a step reads of its inputs only the command and the sink's answer. -/
theorem step_ignores_configuration (s : State) (p : PortInput) (rest : List PortInput) (c : Option Byte)
    (r : Option Bool) (hr : p.rst = false) :
    step { s with inputs := { p with cfgThreshold := c, cfgRowAligned := r } :: rest } =
      step { s with inputs := p :: rest } := by
  rcases Bool.eq_false_or_eq_true p.cmdValid with hv | hv
  · rw [step_present { s with inputs := p :: rest } p rest ⟨rfl, hr, hv⟩]
    exact step_present _ { p with cfgThreshold := c, cfgRowAligned := r } rest ⟨rfl, hr, hv⟩
  · rw [step_idle { s with inputs := p :: rest } p rest rfl hr hv]
    exact step_idle _ { p with cfgThreshold := c, cfgRowAligned := r } rest rfl hr hv

/-- Settles O30: a step without `rst` neither changes the configuration nor reads the inputs that would load it. -/
theorem configurationIsFrozenBetweenResets : Obligations.ConfigurationIsFrozenBetweenResets :=
  ⟨step_keeps_configuration, step_ignores_configuration⟩

end Sys2Proof.Machine
end

section
/-! Running on after earlier bytes (rule R165): nothing the CORE decides depends on OUT, so the same command list from two
states that differ in what was written before does the same in both. -/

namespace Sys2Proof.Machine

/-- `s` is as `s'` but for the bytes `before` that OUT holds first: the relation between a run that goes on after a clean end
and the same run after a reset. After a fault ACC and CNT are unspecified (rule R146). -/
structure RunsOn (before : List Byte) (s s' : State) : Prop where
  out : s.out = before ++ s'.out
  inputs : s.inputs = s'.inputs
  thresh : s.thresh = s'.thresh
  rowal : s.rowal = s'.rowal
  fault : s.fault = s'.fault
  fcause : s.fcause = s'.fcause
  accumulator : s.fault = false → s.acc = s'.acc ∧ s.cnt = s'.cnt

variable {before : List Byte} {s s' : State}

theorem RunsOn.takeInput (h : RunsOn before s s') (p : PortInput) (rest : List PortInput) :
    RunsOn before (takeInput p rest s) (takeInput p rest s') :=
  ⟨h.out, rfl, h.thresh, h.rowal, h.fault, h.fcause, h.accumulator⟩

theorem RunsOn.blocked (h : RunsOn before s s') : RunsOn before (blocked s) (blocked s') :=
  ⟨h.out, h.inputs, h.thresh, h.rowal, h.fault, h.fcause, h.accumulator⟩

theorem RunsOn.emitted (h : RunsOn before s s') (v : Byte) : RunsOn before (emitted v s) (emitted v s') where
  out := by simp [h.out]
  inputs := h.inputs
  thresh := h.thresh
  rowal := h.rowal
  fault := h.fault
  fcause := h.fcause
  accumulator _ := ⟨rfl, rfl⟩

theorem RunsOn.emitFailed (h : RunsOn before s s') (v : Byte) : RunsOn before (emitFailed v s) (emitFailed v s') where
  out := h.out
  inputs := h.inputs
  thresh := h.thresh
  rowal := h.rowal
  fault := rfl
  fcause := rfl
  accumulator hf := by simp at hf

theorem RunsOn.withBit_eq (h : RunsOn before s s') (hf : s.fault = false) (b : Bool) : withBit b s = withBit b s' := by
  obtain ⟨hacc, hcnt⟩ := h.accumulator hf
  rw [withBit, withBit, hacc, hcnt]

theorem RunsOn.writesByte_eq (h : RunsOn before s s') (hf : s.fault = false) (i : Instr) :
    writesByte i s = writesByte i s' := by
  obtain ⟨-, hcnt⟩ := h.accumulator hf
  cases i <;> simp only [writesByte, hcnt, h.rowal]

theorem RunsOn.byteOf_eq (h : RunsOn before s s') (hf : s.fault = false) (i : Instr) : byteOf i s = byteOf i s' := by
  obtain ⟨hacc, hcnt⟩ := h.accumulator hf
  cases i <;> simp only [byteOf, h.withBit_eq hf, h.thresh, hacc, hcnt]

theorem RunsOn.unwritten (h : RunsOn before s s') (hf : s.fault = false) (i : Instr) :
    RunsOn before (unwritten i s) (unwritten i s') where
  out := by simpa using h.out
  inputs := by simpa using h.inputs
  thresh := by simpa using h.thresh
  rowal := by simpa using h.rowal
  fault := by simpa using h.fault
  fcause := by simpa using h.fcause
  accumulator _ := by
    obtain ⟨hacc, hcnt⟩ := h.accumulator hf
    cases i <;> simp [Machine.unwritten, h.withBit_eq hf, h.thresh, hacc, hcnt]

/-- With the same answer of the sink, a command ends in the same way in both states. -/
theorem RunsOn.exec (h : RunsOn before s s') (hr : s.snkResp = s'.snkResp) (i : Instr) {t : State}
    (he : exec i s = .next t) : ∃ t', exec i s' = .next t' ∧ RunsOn before t t' := by
  obtain ⟨hf, rfl⟩ | ⟨hf, hw, rfl⟩ | ⟨hf, hw, hok, rfl⟩ | ⟨hf, hw, hfail, rfl⟩ := exec_next_cases i s t he
  · exact ⟨_, exec_faulted i s' (h.fault ▸ hf), h.blocked⟩
  · exact ⟨_, exec_unwritten i s' (h.fault ▸ hf) (h.writesByte_eq hf i ▸ hw), h.unwritten hf i⟩
  · rw [h.byteOf_eq hf]
    exact ⟨_, exec_writes_ok i s' (h.fault ▸ hf) (h.writesByte_eq hf i ▸ hw) (hr ▸ hok), h.emitted _⟩
  · rw [h.byteOf_eq hf]
    exact ⟨_, exec_writes_fail i s' (h.fault ▸ hf) (h.writesByte_eq hf i ▸ hw) (hr ▸ hfail), h.emitFailed _⟩

/-- A run of some steps that answers a next state has answered one after its first step. -/
theorem run_succ_next (n : Nat) (s t : State) (hrun : runSteps (n + 1) s = .next t) :
    ∃ u, step s = .next u ∧ runSteps n u = .next t := by
  rcases hs : step s with u | f | f
  · exact ⟨u, rfl, (run_succ_of_next n s u hs).symm.trans hrun⟩
  · rw [run_succ_of_fault n s f hs] at hrun
    cases hrun
  · rw [run_succ_of_refused n s f hs] at hrun
    cases hrun

/-- A command list ends in the same way from both states, with the configuration kept (rules R165, R166). -/
theorem RunsOn.run (h : RunsOn before s s') (cmds : List (Instr × Option SinkResp)) (hi : s.inputs = presented cmds)
    {t : State} (hrun : runSteps cmds.length s = .next t) :
    ∃ t', runSteps cmds.length s' = .next t' ∧ RunsOn before t t' ∧ t.thresh = s.thresh ∧ t.rowal = s.rowal := by
  induction cmds generalizing s s' with
  | nil =>
    obtain rfl : s = t := Host.Outcome.next.inj hrun
    exact ⟨s', rfl, h, rfl, rfl⟩
  | cons c more ih =>
    obtain ⟨u, hstep, hrun⟩ := run_succ_next more.length s t hrun
    rw [step_presented s c more hi] at hstep
    obtain ⟨u', he', hu⟩ := (h.takeInput _ _).exec rfl c.1 hstep
    obtain ⟨hthresh, hrowal, hin, -⟩ := exec_keeps_configuration c.1 _ u hstep
    have hstep' := (step_presented s' c more (h.inputs ▸ hi)).trans he'
    obtain ⟨t', hrun', ht, hthresh', hrowal'⟩ := ih hu hin hrun
    exact ⟨t', (run_succ_of_next _ s' u' hstep').trans hrun', ht, hthresh'.trans hthresh, hrowal'.trans hrowal⟩

end Sys2Proof.Machine
end

section
/-! The state at a clean end (rules R23, R29, R163) and the runs that go on from it (rule R165). -/

namespace Sys2Proof.Machine

/-- With nothing pending, zeros below the fill are zeros everywhere (rule R23). -/
theorem acc_eq_zero_of_zeroBelowFill (s : State) (hz : ZeroBelowFill s) (hc : s.cnt = 0#3) : s.acc = 0x00#8 := by
  rw [zeroBelowFill_iff_assemble, hc] at hz
  exact hz.symm

/-- At a clean end the CORE is as after a reset with its configuration, but for OUT. -/
theorem runsOn_reset_of_cleanEnd (s : State) (hinv : CoreInv s) (hend : CleanEnd s) (inputs : List PortInput) :
    RunsOn s.out { s with inputs := inputs } { State.resetWith s.thresh s.rowal with inputs := inputs } := by
  obtain ⟨-, hf, hc⟩ := hend
  exact {
    out := (List.append_nil _).symm
    inputs := rfl
    thresh := rfl
    rowal := rfl
    fault := hf
    fcause := (hinv.running hf).1
    accumulator := fun _ => ⟨acc_eq_zero_of_zeroBelowFill s (hinv.zeroBelowFill hf) hc, hc⟩ }

/-- Settles O48: from a clean end and from the reset state the further command list goes the same way. -/
theorem runningOnAppendsAfterCleanEnd : Obligations.RunningOnAppendsAfterCleanEnd := by
  intro s hinv hend
  have hreset := runsOn_reset_of_cleanEnd s hinv hend
  have ⟨_, hf, hc⟩ := hend
  obtain ⟨hacc, -⟩ := (hreset []).accumulator hf
  refine ⟨hacc, hc, hf, (hreset []).fcause, fun cmds t hrun => ?_⟩
  obtain ⟨u, hrun', h, hthresh, hrowal⟩ := (hreset (presented cmds)).run cmds rfl hrun
  exact ⟨u, hrun', h.out, h.fault, h.fcause, hthresh, hrowal, h.accumulator⟩

end Sys2Proof.Machine
end

section
/-! The written-out words of V-DEC: a command's word is its encoding, and every other word lies in a range of rule R78 or R79. -/

namespace Sys2Proof.Machine

/-- Settles O1: the command words are the encoder's, and the others lie in the ranges that the decoder rejects. -/
theorem encodedWordsDecode : Obligations.EncodedWordsDecode := by
  have hcommand (i : Instr) {w : Word} (h : encode i = w) : decode w = .command i := (decodeInvertsEncode w i).2 h
  refine ⟨hcommand (.add false) rfl, hcommand (.add true) rfl, ?illegal3, ?illegal128, hcommand (.pix 100#8) rfl,
    hcommand (.pix 255#8) rfl, hcommand .flush rfl, ?reserved513, hcommand .eor rfl, ?reserved1023, ?reserved1024⟩
  case illegal3 | illegal128 => exact decode_illegalBitValue _ (by decide) (by decide)
  case reserved513 => exact decode_reserved _ (.inl (by decide))
  case reserved1023 | reserved1024 => exact decode_reserved _ (.inr (by decide))

end Sys2Proof.Machine
end
